-- ==== Sys2Proof/Word.lean ====
section
/-! DEFINITION. The words of the block and the two line levels, with their widths (00_scope.md R9, R10). -/

namespace Sys2Proof

/-- The operand `value` and the register `SHREG`: 8 bits, unsigned (R16, R51). -/
abbrev Byte := BitVec 8

/-- A command word of format CMD9: 9 bits, bit 8 is `OP` and bits 7..0 are `VALUE` (R49). -/
abbrev Command := BitVec 9

/-- A line level is one bit (R10); a direction bit is one bit too, and 0 (`false`) is output (R19). -/
abbrev Level := Bool

/-- LOW = 0 (R10). -/
abbrev low : Level := false

/-- HIGH = 1 (R10). -/
abbrev high : Level := true

end Sys2Proof
end

