-- ==== Sys2Proof/Config.lean ====
section
/-! DEFINITION. The configuration: the parameters of Table R6 with the constraints of R7 and the constants R8 derives
from them, and the free values, which the spec leaves unspecified and no proof can know. -/

namespace Sys2Proof

/-- The implementation parameters of Table R6, each a field ("The model takes each as a field of its
configuration"). `DATA_BITS` is the one the table calls "8, fixed" (R5: not configurable): it is the width
of `Byte`. -/
structure Params where
  /-- `TICK_NS`: the length of one tick in nanoseconds. -/
  tickNs : Nat
  /-- `EDGE_TICKS`: ticks of the Start slot and of the Stop slot. -/
  edgeTicks : Nat
  /-- `DATA_TICKS`: ticks of explicit delay in each data slot. -/
  dataTicks : Nat
  /-- `OVERHEAD_TICKS`: ticks of loop overhead in each data slot. -/
  overheadTicks : Nat
  /-- `TMR_WIDTH`: the width of the delay counter `TMR` in bits. -/
  tmrWidth : Nat
  /-- `PORT_WIDTH`, OPEN: the pins of the shared port. -/
  portWidth : Nat
  /-- `PIN`, OPEN: the index of the serial line's pin. -/
  pin : Nat
deriving DecidableEq, Repr

namespace Params

/-- `DATA_PERIOD` (R8). -/
def dataPeriod (p : Params) : Nat := p.dataTicks + p.overheadTicks

/-- `FRAME_TICKS` (R8). -/
def frameTicks (p : Params) : Nat := 2 * p.edgeTicks + 8 * p.dataPeriod

/-- `PITCH_MIN` (R8). -/
def pitchMin (p : Params) : Nat := p.frameTicks + 1

/-- The largest value `TMR` can hold, `2^TMR_WIDTH - 1` (R7, R88). -/
def timerMax (p : Params) : Nat := 2 ^ p.tmrWidth - 1

/-- R7: `1 <= EDGE_TICKS`. -/
def edgePositive (p : Params) : Bool := decide (1 ≤ p.edgeTicks)

/-- R7: `1 <= DATA_TICKS`. (`0 <= OVERHEAD_TICKS` holds of every natural number.) -/
def dataPositive (p : Params) : Bool := decide (1 ≤ p.dataTicks)

/-- R7: `EDGE_TICKS` is at most `2^TMR_WIDTH - 1`. -/
def edgeFits (p : Params) : Bool := decide (p.edgeTicks ≤ p.timerMax)

/-- R7: `DATA_TICKS + OVERHEAD_TICKS` is at most `2^TMR_WIDTH - 1`. -/
def dataFits (p : Params) : Bool := decide (p.dataPeriod ≤ p.timerMax)

/-- R6: `0 <= PIN < PORT_WIDTH`, and with it `PORT_WIDTH >= 1`. -/
def pinInPort (p : Params) : Bool := decide (p.pin < p.portWidth)

/-- A legal setting: every constraint of R6 and R7. A setting outside it is refused (93 U18). -/
def legal (p : Params) : Bool :=
  p.edgePositive && p.dataPositive && p.edgeFits && p.dataFits && p.pinInPort

/-- The calibration contract (R7): no constraint of the machine, a premise of equal slots (R101). -/
def calibrated (p : Params) : Prop := p.dataPeriod = p.edgeTicks

/-- The length of `n` ticks in nanoseconds (R8, R116: real time is ticks times `TICK_NS`). -/
def timeNs (p : Params) (n : Nat) : Nat := n * p.tickNs

/-- The values this hardware takes (Table R6), with the OPEN `PORT_WIDTH` and `PIN` at the values of
the worked examples (95, conventions: `PORT_WIDTH = 8`, `PIN = 0`). DESIGN CHOICE, log entry 2: only
`State.reset` uses it. -/
def reference : Params :=
  { tickNs := 1000, edgeTicks := 104, dataTicks := 103, overheadTicks := 1, tmrWidth := 16,
    portWidth := 8, pin := 0 }

end Params

/-- A configuration of the machine: a legal setting of the parameters, so that an illegal one cannot
be written down (93 U18: "not a legal configuration"). -/
structure Config extends Params where
  /-- The constraints of R6 and R7 hold. -/
  isLegal : toParams.legal = true
deriving DecidableEq, Repr

/-- The reference configuration of Table R6. -/
def Config.reference : Config := { Params.reference with isLegal := by decide }

/-! ### Free values
Each stands for a draw of the spec: nothing in Lean can evaluate it, and what is proved holds for
every value. The argument `n` is `State.ticks`, which every tick advances. Log entries 4 to 7. -/

/-- `PORTLAT[PIN]` after the reset action of R125 in tick `n` ("unspecified: a draw, either 0 or 1"). -/
opaque Config.freeLineAfterReset : Nat → Level

/-- The level a receiver reads from the undriven wire in tick `n` (R24; 93 U6). -/
opaque Config.freeUndrivenLevel : Nat → Level

/-- What `read_sample()` returns in tick `n` (R95; 93 U10). -/
opaque Config.freeSample : Nat → Byte

/-- `env_dir[n][j]` of an environment that is left free (R39; 93 U8). -/
opaque Config.freeSiblingDir : Nat → Nat → Level

/-- `env_lat[n][j]` of an environment that is left free (R39; 93 U8). -/
opaque Config.freeSiblingLat : Nat → Nat → Level

end Sys2Proof
end

