-- ==== Sys2Proof/Syntax.lean ====
section
/-! DEFINITION. The abstract syntax of the command set CMD9 version 1: the two operations of
opcode_table.json (30_encoding.md R50, R51). -/

namespace Sys2Proof

/-- The two operations. `CONFIGURE` has no operand (R51, R64: "Operands: none"), so its ignored
`VALUE` field is no part of the instruction; `TRANSMIT_BYTE` has one, an 8-bit unsigned value. -/
inductive Instr where
  /-- `CONFIGURE`: make the line an output resting at HIGH (R64). -/
  | configure
  /-- `TRANSMIT_BYTE`: emit one framed byte on the line (R68). -/
  | transmitByte (value : Byte)
deriving DecidableEq, Repr

end Sys2Proof
end

