-- ==== Sys2Proof/Decode.lean ====
section
/-! DEFINITION. The one format CMD9, its decoder and its encoder (30_encoding.md R49 to R52, R57, R63;
opcode_table.json). -/

namespace Sys2Proof

/-- `OP = cmd_word[8]` (R49). -/
def opField (w : Command) : Bool := w.getLsbD 8

/-- `VALUE = cmd_word[7:0]`, taken as it stands (R49, R51). -/
def valueField (w : Command) : Byte := w.extractLsb' 0 8

/-- A row of the opcode table: a word `w` is the row's when `w &&& mask = pattern`. -/
structure OpcodeRow where
  mnemonic : String
  mask : Command
  pattern : Command
deriving DecidableEq, Repr

/-- opcode_table.json, and R50's "match and mask". -/
def opcodeTable : List OpcodeRow :=
  [ { mnemonic := "CONFIGURE", mask := 0x100#9, pattern := 0x000#9 },
    { mnemonic := "TRANSMIT_BYTE", mask := 0x100#9, pattern := 0x100#9 } ]

/-- A word belongs to a row of the opcode table. -/
def OpcodeRow.covers (r : OpcodeRow) (w : Command) : Bool := w &&& r.mask == r.pattern

/-- The decoder of the command port, total on the 512 words (R50): `OP = 0` is `CONFIGURE` whatever
`VALUE` holds (R52), `OP = 1` is `TRANSMIT_BYTE`. -/
def decode (w : Command) : Instr :=
  if opField w then .transmitByte (valueField w) else .configure

/-- Why a number is no command. -/
inductive DecodeError where
  /-- The number does not fit the 9 bits of `cmd_word` (R49, R63: every command is 9 bits). No tick can
  present it, so nothing runs: safe. -/
  | widerThanCommandWord (n : Nat)
deriving DecidableEq, Repr

/-- The decoder on any number: the 9-bit ones decode, the others are rejected by name. No rule speaks of a
wider number: DESIGN CHOICE, log entry 8. -/
def decodeWord (n : Nat) : Except DecodeError Instr :=
  if n < 2 ^ 9 then .ok (decode (BitVec.ofNat 9 n)) else .error (.widerThanCommandWord n)

/-- The number a list of bytes spells, the first byte the least significant. The spec gives a command no
byte form; here a list of any length spells a number, the empty list 0, and zero bytes at its end change
nothing: DESIGN CHOICE, log entry 8. -/
def wordOfBytes : List Byte → Nat
  | [] => 0
  | b :: rest => b.toNat + 256 * wordOfBytes rest

/-- The decoder on any bytes: the bytes decode as the number they spell, whatever their count. So the empty
list and every single byte are `CONFIGURE`, and zero bytes after the second are passed over: DESIGN CHOICE,
log entry 8. -/
def decodeBytes (bytes : List Byte) : Except DecodeError Instr := decodeWord (wordOfBytes bytes)

/-- The bits of a table word of `nbits` bits: a number's bits from `nbits` on are no part of it and are
dropped. No rule gives a table word in another width than 9: DESIGN CHOICE, log entry 8. -/
def tableBits (nbits w : Nat) : Nat := w % 2 ^ nbits

/-- The instruction the decoder reads from the table word `w` of `nbits` bits; `none` where it rejects.
A table word is the command word itself: the table numbers its bits as `cmd_word` does. Among its `nbits`
bits one above the nine makes it no command word, and it is rejected: DESIGN CHOICE, log entry 8. -/
def decodeTableWord (nbits w : Nat) : Option Instr :=
  match decodeWord (tableBits nbits w) with
  | .ok i => some i
  | .error _ => none

/-- The encoder: the canonical word of an instruction, the one an assembler emits (R52, R57):
`0x000` for `CONFIGURE`, `0x100 | v` for `TRANSMIT_BYTE`. -/
def encode : Instr → Command
  | .configure => 0x000#9
  | .transmitByte value => 0x100#9 ||| value.setWidth 9

/-- The row of the opcode table an instruction belongs to. -/
def Instr.row : Instr → OpcodeRow
  | .configure => { mnemonic := "CONFIGURE", mask := 0x100#9, pattern := 0x000#9 }
  | .transmitByte _ => { mnemonic := "TRANSMIT_BYTE", mask := 0x100#9, pattern := 0x100#9 }

end Sys2Proof
end

