-- ==== Sys2Proof/SourceText.lean ====
section
/-! DEFINITION. The abstract syntax of a line of a test program as R57, R59, R60 and R61 write it,
before the assembler has looked at its numbers. -/

namespace Sys2Proof

/-- One item of program text. Numbers are as written: an operand out of range can be written down, and
the assembler refuses it (R57). -/
inductive SourceItem where
  /-- `configure` (R57). -/
  | configure
  /-- `transmit_byte <v>` (R57). -/
  | transmitByte (v : Nat)
  /-- `delay_us <n>`, a host directive (R59). -/
  | delayUs (n : Nat)
  /-- `delay_ms <n>`, a host directive (R59). -/
  | delayMs (n : Nat)
  /-- `transmit_sample`, a pseudo-instruction (R60). -/
  | transmitSample
  /-- `transmit_decimal_line <d2> <d1> <d0>`, a pseudo-instruction (R61). -/
  | transmitDecimalLine (d2 d1 d0 : Nat)
deriving DecidableEq, Repr

end Sys2Proof
end

