-- ==== Sys2Proof/WellFormed.lean ====
section
/-! DEFINITION. Well-formedness of an instruction and of an item of program text. The check of a
parameter setting, `Params.legal`, stands beside the parameters in Config.lean. -/

namespace Sys2Proof

/-- Every operand lies in the range the spec gives it: "any value in [0,255]; no other constraints"
(R51). The operand's type already says so, hence every instruction is well-formed
(`Sys2Proof.Laws.RowWord`). -/
def Instr.wellFormed : Instr → Bool
  | .configure => true
  | .transmitByte value => decide (value.toNat ≤ 255)

/-- The numbers of an item of program text are in range: `0 <= v <= 255` (R57), decimal digits 0 to 9
(R61), any natural number for a delay (R59). -/
def SourceItem.wellFormed : SourceItem → Bool
  | .configure => true
  | .transmitByte v => decide (v ≤ 255)
  | .delayUs _ => true
  | .delayMs _ => true
  | .transmitSample => true
  | .transmitDecimalLine d2 d1 d0 => decide (d2 ≤ 9) && decide (d1 ≤ 9) && decide (d0 ≤ 9)

end Sys2Proof
end

