-- ==== Sys2Proof/Machine/State.lean ====
section
/-! DEFINITION. The state of the machine: the five pieces of state R14 gives the block, the configuration, and, as
plain data, the agents of R13 that act on it (the levels of `rst`, the command port, the environment, the host). -/

namespace Sys2Proof.Machine

/-- `PHASE`, the sequencer: exactly the eleven values of R15. -/
inductive Phase where
  | idle
  | start
  | data0
  | data1
  | data2
  | data3
  | data4
  | data5
  | data6
  | data7
  | stop
deriving DecidableEq, Repr

/-- The levels of `cmd_valid` and `cmd_word` in one tick (Table R21). -/
structure CommandPins where
  valid : Bool
  word : Command
deriving DecidableEq, Repr

/-- What the environment does in one tick (R39): the pins it writes, with the value it gives each. A pin
not listed is rewritten with the value it has (95, conventions: "environment idle"); of two entries for one
pin the first counts, and one beyond the port is read by nothing (DESIGN CHOICE, log entry 7). An entry for `PIN`
is no move: nothing reads it (R129: `env_dir` and `env_lat` have no component for bit `PIN`; DEDUCED, log entry 12). -/
structure EnvMove where
  /-- `env_dir`: writes to bits of `PORTDIR`. -/
  dir : List (Nat × Level)
  /-- `env_lat`: writes to bits of `PORTLAT`. -/
  lat : List (Nat × Level)
deriving DecidableEq, Repr

/-- What the environment does once its listed moves are used up. -/
inductive EnvTail where
  /-- It rewrites every sibling bit with the value it has. -/
  | idle
  /-- Every sibling bit takes a free value at every tick (93 U8). -/
  | free
deriving DecidableEq, Repr

/-- One item of a host program (R58), after assembly (R57, R61); `transmitSample` stays an item because
its operand is drawn only when the item begins (R60). -/
inductive HostItem where
  | command (i : Instr)
  | transmitSample
  | delayUs (n : Nat)
  | delayMs (n : Nat)
deriving DecidableEq, Repr

/-- The host (R58): the caller of the two operations. -/
structure Caller where
  /-- The items from `item[k]` on: R58's index `k` is the length of what has been taken off. -/
  program : List HostItem
  /-- The ticks already spent in the delay at the head of `program`. -/
  spent : Nat
  /-- R58's eager host, which presents its next command while `busy = 1`; otherwise the sequential one. -/
  eager : Bool
  /-- Results of `read_sample()` stated with the program (R60: "a test program fixes it by stating the
  sample"), the next one first; once used up, a result is a free value. -/
  samples : List Byte
deriving DecidableEq, Repr

/-- The fields the block owns (R13, R27): `PHASE`, `TMR`, `SHREG`, and the port bits `DIR` and `LINE`. -/
structure Owned where
  phase : Phase
  tmr : Nat
  shreg : Byte
  dir : Level
  line : Level
deriving DecidableEq, Repr

/-- The reasons a step can stop the machine: none (R108: "In a model the type of fault reasons of the
block is empty"). Nobody raises one. -/
inductive Fault where
deriving DecidableEq, Repr

/-- The reasons a step can refuse an instruction. -/
inductive Refusal where
  /-- An instruction that has no meaning yet, by its mnemonic. Raised by a refused arm of `exec` only; no
  arm is refused, so nobody raises it. Safe: the run stops. -/
  | notModelled (mnemonic : String)
deriving DecidableEq, Repr

/-- The state during a tick. -/
structure State where
  /-- The configuration (R6), which no step changes. -/
  cfg : Config
  /-- `PHASE` (R15). -/
  phase : Phase
  /-- `TMR` (R17), as the number its `TMR_WIDTH` bits hold; that it fits them is an invariant
  (`State.timerFits`). DESIGN CHOICE, log entry 23. -/
  tmr : Nat
  /-- `SHREG` (R16). -/
  shreg : Byte
  /-- `PORTDIR` (R19): bit `j` at place `j`, `PORT_WIDTH` of them; `false` is output. -/
  portdir : List Level
  /-- `PORTLAT` (R20): bit `j` at place `j`, `PORT_WIDTH` of them. -/
  portlat : List Level
  /-- The model's own: ticks executed so far. It numbers the free values, and no reset clears it. -/
  ticks : Nat
  /-- The input `rst` (R21) in this tick and the next ones; 0 once used up. -/
  rstPin : List Bool
  /-- The inputs `cmd_valid` and `cmd_word` (R21) in this tick and the next ones, where they are driven
  directly; once used up, the host's program drives them. -/
  cmdPort : List CommandPins
  /-- The environment's moves (R39) in this tick and the next ones. -/
  env : List EnvMove
  /-- What the environment does after them. -/
  envTail : EnvTail
  /-- The host (R58). -/
  caller : Caller
deriving DecidableEq, Repr

/-- The state in tick 0 (R28, R124): the first tick with `rst = 0`. The spec gives `PHASE`, `TMR`,
`SHREG` and `DIR`; `LINE` and the sibling bits it leaves unspecified, and they take the values of the
start state of 95 Part 3 (`PORTDIR = 0xFF`, `PORTLAT = 0x00`). DESIGN CHOICE, log entries 2 and 3. No
program is loaded and no input is scheduled (log entry 8). -/
def State.reset : State :=
  { cfg := Config.reference
    phase := .idle
    tmr := 0
    shreg := 0
    portdir := [true, true, true, true, true, true, true, true]
    portlat := [false, false, false, false, false, false, false, false]
    ticks := 0
    rstPin := []
    cmdPort := []
    env := []
    envTail := .idle
    caller := { program := [], spent := 0, eager := false, samples := [] } }

end Sys2Proof.Machine
end

