-- ==== Sys2Proof/Machine/Inputs.lean ====
section
/-! DEFINITION. The inputs of one tick that are not the command: `rst` (70 R124) and the environment's choices for
the sibling bits (20 R35, R39), and the bits of the two port registers. -/

namespace Sys2Proof.Machine

/-- `rst` in this tick. -/
def State.rst (s : State) : Bool := s.rstPin.headD false

/-- `PORTDIR[j]`. -/
def State.dirBit (s : State) (j : Nat) : Level := s.portdir[j]?.getD false

/-- `PORTLAT[j]`. -/
def State.latBit (s : State) (j : Nat) : Level := s.portlat[j]?.getD false

/-- `DIR = PORTDIR[PIN]` (R14). -/
def State.dir (s : State) : Level := s.dirBit s.cfg.pin

/-- `LINE = PORTLAT[PIN]` (R14). -/
def State.line (s : State) : Level := s.latBit s.cfg.pin

/-- `env_dir[j]` in this tick (R39). -/
def State.envDir (s : State) (j : Nat) : Level :=
  match s.env with
  | move :: _ => (move.dir.lookup j).getD (s.dirBit j)
  | [] =>
    match s.envTail with
    | .idle => s.dirBit j
    | .free => Config.freeSiblingDir s.ticks j

/-- `env_lat[j]` in this tick (R39). -/
def State.envLat (s : State) (j : Nat) : Level :=
  match s.env with
  | move :: _ => (move.lat.lookup j).getD (s.latBit j)
  | [] =>
    match s.envTail with
    | .idle => s.latBit j
    | .free => Config.freeSiblingLat s.ticks j

/-- The next value of a port register (R35): the block's bit at `PIN`, the environment's at every other
pin. Nothing of the register's old value goes through the block (R36). -/
def nextPort (cfg : Config) (own : Level) (env : Nat → Level) : List Level :=
  (List.range cfg.portWidth).map fun j => if j = cfg.pin then own else env j

/-- The fields the block owns, read off the state. -/
def State.owned (s : State) : Owned :=
  { phase := s.phase, tmr := s.tmr, shreg := s.shreg, dir := s.dir, line := s.line }

end Sys2Proof.Machine
end

