-- ==== Sys2Proof/Machine/Flags.lean ====
section
/-! DEFINITION. The outputs of the block: its two status bits, which are its only flags (10_state.md R22), the line
outputs (R23) and the wire (R24). -/

namespace Sys2Proof.Machine

/-- `busy` (R22). -/
def State.busy (s : State) : Bool := decide (s.phase ≠ .idle)

/-- `cmd_ready` (R22). -/
def State.cmdReady (s : State) : Bool := decide (s.phase = .idle) && !s.rst

/-- `line_out` (R23). -/
def State.lineOut (s : State) : Level := s.line

/-- `line_oe`: 1 if and only if `DIR = 0` (R23). -/
def State.lineOe (s : State) : Bool := !s.dir

/-- `dir_q` (R23), the `get_direction()` of R87. -/
def State.dirQ (s : State) : Level := s.dir

/-- What a receiver connected to the pin sees (R24). `Z` exists for the wire only (R10). -/
inductive Wire where
  | driven (l : Level)
  | z
deriving DecidableEq, Repr

/-- `wire` (R24). -/
def State.wire (s : State) : Wire := if s.dir = false then .driven s.line else .z

/-- The level a receiver reads in this tick: the wire's, or a free value while it is undriven (R24;
93 U6). -/
def State.levelRead (s : State) : Level :=
  match s.wire with
  | .driven l => l
  | .z => Config.freeUndrivenLevel s.ticks

end Sys2Proof.Machine
end

