-- ==== Sys2Proof/Machine/Caller.lean ====
section
/-! DEFINITION. The host as an agent (30_encoding.md R58 to R60): what it presents on the command port in a tick, and
how it moves on. -/

namespace Sys2Proof.Machine

/-- The ticks a delay directive takes (R59): `n` for `delay_us n`, `1000 * n` for `delay_ms n`
(PRESUMED, the spec's own general knowledge G2, log entry 16). A command item is no delay. -/
def HostItem.delayTicks : HostItem → Nat
  | .command _ => 0
  | .transmitSample => 0
  | .delayUs n => n
  | .delayMs n => 1000 * n

/-- The items from the one the host executes in this tick on: a delay of 0 ticks "takes no tick" (R59), so
it is passed over. -/
def settle : List HostItem → List HostItem
  | [] => []
  | .command i :: rest => .command i :: rest
  | .transmitSample :: rest => .transmitSample :: rest
  | .delayUs n :: rest => if n = 0 then settle rest else .delayUs n :: rest
  | .delayMs n :: rest => if n = 0 then settle rest else .delayMs n :: rest

/-- What `read_sample()` returns to the host in this tick (R95): the sample stated with the program, or a
free value. -/
def State.readSample (s : State) : Byte := s.caller.samples.headD (Config.freeSample s.ticks)

/-- The host is inside a blocking call or held in reset (R58): it makes no progress. -/
def State.callerHeld (s : State) : Bool := s.rst || s.busy

/-- The host presents its current item in this tick: the sequential host only when it is free, the eager
one while `busy = 1` too (R58). Held in reset neither does: for the eager one DESIGN CHOICE, log entry 9. -/
def State.callerPresents (s : State) : Bool := !s.rst && (s.caller.eager || !s.busy)

/-- The word of the host's current item, where that is a command (R58, R60). -/
def State.callerItemWord (s : State) : Option Command :=
  match settle s.caller.program with
  | .command i :: _ => some (encode i)
  | .transmitSample :: _ => some (encode (.transmitByte s.readSample))
  | .delayUs _ :: _ => none
  | .delayMs _ :: _ => none
  | [] => none

/-- The command on the port in this tick: `cmd_word` where `cmd_valid = 1`, and `none` where it is 0
(R55). -/
def State.command (s : State) : Option Command :=
  match s.cmdPort with
  | pins :: _ => if pins.valid then some pins.word else none
  | [] => if s.callerPresents then s.callerItemWord else none

/-- The command accepted in this tick, if any (R53). -/
def State.accepts (s : State) : Option Instr := if s.cmdReady then s.command.map decode else none

/-- A tick of the delay at the head of the program (R59). -/
def Caller.spend (c : Caller) (total : Nat) (here rest : List HostItem) : Caller :=
  if c.spent + 1 < total then { c with program := here, spent := c.spent + 1 }
  else { c with program := rest, spent := 0 }

/-- The host after a tick in which its program drives the command port. A free host finishes its command
item (it is accepted in this very tick, R58) or spends a tick of its delay. A held host keeps its place,
except that an eager one that begins a `transmit_sample` item reads the sample then (R60). -/
def State.callerOnward (s : State) : Caller :=
  match settle s.caller.program with
  | .command i :: rest =>
    if s.callerHeld then { s.caller with program := .command i :: rest }
    else { s.caller with program := rest }
  | .transmitSample :: rest =>
    if s.callerHeld then
      if s.callerPresents then
        { s.caller with program := .command (.transmitByte s.readSample) :: rest
                        samples := s.caller.samples.tail }
      else { s.caller with program := .transmitSample :: rest }
    else { s.caller with program := rest, samples := s.caller.samples.tail }
  | .delayUs n :: rest =>
    if s.callerHeld then { s.caller with program := .delayUs n :: rest }
    else s.caller.spend n (.delayUs n :: rest) rest
  | .delayMs n :: rest =>
    if s.callerHeld then { s.caller with program := .delayMs n :: rest }
    else s.caller.spend (1000 * n) (.delayMs n :: rest) rest
  | [] => { s.caller with program := [] }

/-- The host after this tick: while the command port is driven directly its program waits. -/
def State.callerNext (s : State) : Caller :=
  match s.cmdPort with
  | _ :: _ => s.caller
  | [] => s.callerOnward

/-- The host has nothing more to present and `busy = 0`: the run is over (R137). Levels still scheduled on the
command port count as something to present (DESIGN CHOICE, log entry 9). -/
def State.runOver (s : State) : Bool := s.cmdPort.isEmpty && (settle s.caller.program).isEmpty && !s.busy

end Sys2Proof.Machine
end

