-- ==== Sys2Proof/Machine/Operands.lean ====
section
/-! DEFINITION. The little arithmetic of the block (42_primitives.md R91 to R94) and the functions of `PHASE` the
spec names (10_state.md R15, R18). -/

namespace Sys2Proof.Machine

/-- Bit isolation, `SHREG & 0x01` (R91). -/
def isolate (v : Byte) : Byte := v &&& 0x01#8

/-- The level of an isolated bit: `0x01` is HIGH, `0x00` is LOW (R91). -/
def levelOf (isolated : Byte) : Level := isolated != 0x00#8

/-- `SHREG >> 1`: logical, by one place, bit 7 filled with 0 (R9, R92). -/
def shiftRightOne (v : Byte) : Byte := v >>> 1

/-- `TMR - 1` (R94): used only where `TMR > 1`. -/
def timerMinusOne (t : Nat) : Nat := t - 1

/-- A tick count as a register of `TMR_WIDTH` bits holds it (R17, R94); `Params.legal` makes every count
that is loaded fit. -/
def timerOf (cfg : Config) (n : Nat) : Nat := n % 2 ^ cfg.tmrWidth

/-- The 4-bit register-transfer codes of R15. -/
def Phase.code : Phase → BitVec 4
  | .idle => 0
  | .start => 1
  | .data0 => 2
  | .data1 => 3
  | .data2 => 4
  | .data3 => 5
  | .data4 => 6
  | .data5 => 7
  | .data6 => 8
  | .data7 => 9
  | .stop => 10

/-- The next phase in the order of R15; `STOP` goes back to `IDLE`. -/
def Phase.succ : Phase → Phase
  | .idle => .start
  | .start => .data0
  | .data0 => .data1
  | .data1 => .data2
  | .data2 => .data3
  | .data3 => .data4
  | .data4 => .data5
  | .data5 => .data6
  | .data6 => .data7
  | .data7 => .stop
  | .stop => .idle

/-- `BITCNT`, the source's loop counter as a function of `PHASE` (R18). -/
def Phase.bitcnt : Phase → Nat
  | .idle => 0
  | .start => 8
  | .data0 => 8
  | .data1 => 7
  | .data2 => 6
  | .data3 => 5
  | .data4 => 4
  | .data5 => 3
  | .data6 => 2
  | .data7 => 1
  | .stop => 0

/-- The phase that stands for `DATA_i` (`i` from 0 to 7; a larger `i` is not a data slot, and the last
one is given). -/
def Phase.data : Nat → Phase
  | 0 => .data0
  | 1 => .data1
  | 2 => .data2
  | 3 => .data3
  | 4 => .data4
  | 5 => .data5
  | 6 => .data6
  | _ => .data7

end Sys2Proof.Machine
end

