-- ==== Sys2Proof/Machine/Ops.lean ====
section
/-! DEFINITION. The micro-operations of the block (42_primitives.md R85 to R88), the tick of the sequencer
(41_transmit_byte.md R70 to R74), the reset action (70 R125), and the one frame every tick of the machine goes
through (41 R83, 60 R110). The block takes no exception and returns from none (60 R108, R112, R113): there is no
trap entry and no trap return to write here. -/

namespace Sys2Proof.Machine

/-- `set_line_level(l)`: `PORTLAT[PIN] <- l` (R85). -/
def Owned.setLineLevel (o : Owned) (l : Level) : Owned := { o with line := l }

/-- `configure_line_as_output()`: `PORTDIR[PIN] <- 0` (R86). -/
def Owned.configureLineAsOutput (o : Owned) : Owned := { o with dir := false }

/-- `delay_microseconds(n)` inside the block: load `TMR <- n` at the beginning of a slot (R88). -/
def Owned.delayMicroseconds (cfg : Config) (o : Owned) (n : Nat) : Owned :=
  { o with tmr := timerOf cfg n }

/-- `SHREG <- SHREG >> 1` (R92). -/
def Owned.shift (o : Owned) : Owned := { o with shreg := shiftRightOne o.shreg }

/-- `PHASE <- p`. -/
def Owned.goto (o : Owned) (p : Phase) : Owned := { o with phase := p }

/-- Holding a slot (R70): the delay counts down and nothing else changes. -/
def Owned.hold (o : Owned) : Owned := { o with tmr := timerMinusOne o.tmr }

/-- End of the Start slot (R71): drive bit 0 of the unshifted value and hold it for a data period. -/
def Owned.endStart (cfg : Config) (o : Owned) : Owned :=
  ((o.setLineLevel (levelOf (isolate o.shreg))).goto .data0).delayMicroseconds cfg cfg.dataPeriod

/-- End of a data slot other than the last (R72): shift, drive what is now bit 0, hold it. -/
def Owned.endData (cfg : Config) (next : Phase) (o : Owned) : Owned :=
  ((o.shift.setLineLevel (levelOf (isolate o.shift.shreg))).goto next).delayMicroseconds cfg cfg.dataPeriod

/-- End of the last data slot (R73): the eighth shift, and the Stop bit, fixed HIGH. -/
def Owned.endLastData (cfg : Config) (o : Owned) : Owned :=
  ((o.shift.setLineLevel high).goto .stop).delayMicroseconds cfg cfg.edgeTicks

/-- End of the Stop slot (R74): the return of the call. -/
def Owned.endStop (o : Owned) : Owned := { o.goto .idle with tmr := 0 }

/-- The end of the slot of each phase (R71 to R74). `IDLE` is no slot. -/
def Owned.endSlot (cfg : Config) (o : Owned) : Owned :=
  match o.phase with
  | .idle => o
  | .start => o.endStart cfg
  | .data0 => o.endData cfg .data1
  | .data1 => o.endData cfg .data2
  | .data2 => o.endData cfg .data3
  | .data3 => o.endData cfg .data4
  | .data4 => o.endData cfg .data5
  | .data5 => o.endData cfg .data6
  | .data6 => o.endData cfg .data7
  | .data7 => o.endLastData cfg
  | .stop => o.endStop

/-- The sequencer's own step in a busy tick: hold while `TMR > 1` (R70), else end the slot. -/
def Owned.sequence (cfg : Config) (o : Owned) : Owned :=
  if o.tmr > 1 then o.hold else o.endSlot cfg

/-- The reset action (R125): `LINE` takes the drawn level. -/
def Owned.afterReset (drawn : Level) : Owned :=
  { phase := .idle, tmr := 0, shreg := 0x00, dir := true, line := drawn }

/-- The block in one tick, in the order of precedence of R110: (1) `rst`; (2) the sequencer, where
`PHASE != IDLE`; (3), (4) what an idle block does with the command port, `onIdle`. -/
def State.nextOwned (s : State) (onIdle : Owned → Owned) : Owned :=
  if s.rst then .afterReset (Config.freeLineAfterReset s.ticks)
  else if s.owned.phase = .idle then onIdle s.owned
  else s.owned.sequence s.cfg

/-- The end of a tick: the block's fields take their next values, the sibling bits the environment's
(R35), and every agent moves on by one tick. -/
def State.commit (s : State) (o : Owned) : State :=
  { s with
    phase := o.phase
    tmr := o.tmr
    shreg := o.shreg
    portdir := nextPort s.cfg o.dir s.envDir
    portlat := nextPort s.cfg o.line s.envLat
    ticks := s.ticks + 1
    rstPin := s.rstPin.tail
    cmdPort := s.cmdPort.tail
    env := s.env.tail
    caller := s.callerNext }

/-- One tick of the machine in which an idle block does `onIdle` (R83). -/
def State.tickWith (s : State) (onIdle : Owned → Owned) : State := s.commit (s.nextOwned onIdle)

/-- A tick with no command on the port (R55, R75): an idle block changes nothing. -/
def State.quietTick (s : State) : State := s.tickWith fun o => o

end Sys2Proof.Machine
end

