-- ==== Sys2Proof/Machine/Configure.lean ====
section
/-! DEFINITION. The operation `CONFIGURE` (40_configure.md R64, R90). -/

namespace Sys2Proof.Machine

/-- The effect of an accepted `CONFIGURE`: `configure_line_as_output()` and `set_line_level(HIGH)` in one
tick (R64, R90; DEDUCED, log entry 18). -/
def acceptConfigure (o : Owned) : Owned := o.configureLineAsOutput.setLineLevel high

/-- A tick with `CONFIGURE` on the command port: accepted by an idle block (R53, R64), without effect on a
busy one (R54). -/
def execConfigure (s : State) : Host.Outcome State Fault Refusal := .next (s.tickWith acceptConfigure)

end Sys2Proof.Machine
end

