-- ==== Sys2Proof/Machine/TransmitByte.lean ====
section
/-! DEFINITION. The operation `TRANSMIT_BYTE` (41_transmit_byte.md R68, R69). Its acceptance takes one tick; the frame
that follows is the sequencer's, tick by tick (Machine/Ops.lean). -/

namespace Sys2Proof.Machine

/-- The effect of an accepted `TRANSMIT_BYTE` (R69): `SHREG <- value`, the line LOW, the Start slot
begins. `DIR` is neither written nor examined. -/
def acceptTransmitByte (cfg : Config) (value : Byte) (o : Owned) : Owned :=
  (({ o with shreg := value }.setLineLevel low).goto .start).delayMicroseconds cfg cfg.edgeTicks

/-- A tick with `TRANSMIT_BYTE value` on the command port: accepted by an idle block (R53, R69), without
effect on a busy one (R54). -/
def execTransmitByte (value : Byte) (s : State) : Host.Outcome State Fault Refusal :=
  .next (s.tickWith (acceptTransmitByte s.cfg value))

end Sys2Proof.Machine
end

