-- ==== Sys2Proof/Machine/Fetch.lean ====
section
/-! DEFINITION. Putting a command word on the command port, which is where the machine fetches (30_encoding.md R49,
R53). -/

namespace Sys2Proof.Machine

/-- `rst = 0` in this tick, the later ones as they are. -/
def rstLow : List Bool → List Bool
  | [] => []
  | _ :: rest => false :: rest

/-- The state with `word` presented in this tick (`cmd_valid = 1`) and `rst = 0`. -/
def State.present (s : State) (word : Command) : State :=
  { s with
    rstPin := rstLow s.rstPin
    cmdPort := { valid := true, word := word } :: s.cmdPort.tail }

/-- The state with another host: other levels scheduled on the command port, another caller. -/
def State.withHostSide (s : State) (port : List CommandPins) (caller : Caller) : State :=
  { s with cmdPort := port, caller := caller }

/-- The state with `rst = 0` and `cmd_valid = 0` in this tick, `word` standing on the bus all the same. -/
def State.presentNothing (s : State) (word : Command) : State :=
  { s with
    rstPin := rstLow s.rstPin
    cmdPort := { valid := false, word := word } :: s.cmdPort.tail }

/-- The state with the sequencer at another point of a frame. -/
def State.withSequencer (s : State) (p : Phase) (n : Nat) (v : Byte) : State :=
  { s with phase := p, tmr := n, shreg := v }

end Sys2Proof.Machine
end

