-- ==== Sys2Proof/Machine/Step.lean ====
section
/-! DEFINITION. One step of the machine is one tick (00_scope.md R11, 41_transmit_byte.md R83). -/

namespace Sys2Proof.Machine

/-- One tick: the command on the port is decoded and executed; with none, the tick is quiet. -/
def step (s : State) : Host.Outcome State Fault Refusal :=
  match s.command with
  | some word => exec (decode word) s
  | none => .next s.quietTick

/-- The table word `w` put on the command port for the next tick, with `rst = 0`. A table word the decoder
rejects cannot stand on the nine bits of the port: it is not cut to them, and the tick presents no command.
No rule speaks of either: DESIGN CHOICE, log entry 8. -/
def State.withFetchWord (s : State) (nbits w : Nat) : State :=
  match decodeTableWord nbits w with
  | some _ => s.present (BitVec.ofNat 9 (tableBits nbits w))
  | none => s.presentNothing 0x000#9

end Sys2Proof.Machine
end

