-- ==== Sys2Proof/Machine/Assembler.lean ====
section
/-! DEFINITION. The assembler of test programs: the textual syntax (30_encoding.md R57), the pseudo-instructions
(R60, R61), the words it emits and the host timeline (R62). -/

namespace Sys2Proof.Machine

/-- Why the assembler refuses a line. Nothing is assembled then, so nothing runs: safe. -/
inductive AsmError where
  /-- A value outside 0 to 255: "it has no encoding" (R57). -/
  | valueOutOfRange (v : Nat)
  /-- A decimal digit outside 0 to 9 (R61: "each `d` a decimal digit 0 to 9"); that the assembler refuses it
  is DESIGN CHOICE, log entry 21. -/
  | digitOutOfRange (d2 d1 d0 : Nat)
  /-- A line that is no item of R57, R59, R60 or R61. -/
  | notAnItem
deriving DecidableEq, Repr

/-- The code of a decimal digit as an ASCII character, `48 + d` (R61). PRESUMED, the spec's own general
knowledge G1, log entry 10. -/
def digitCode (d : Nat) : Byte := BitVec.ofNat 8 (48 + d)

/-- The five values `transmit_decimal_line` sends, in order: hundreds, tens, units, carriage-return,
line-feed (R61). -/
def decimalLine (d2 d1 d0 : Nat) : List Byte := [digitCode d2, digitCode d1, digitCode d0, 13, 10]

/-- The digits of a sample by the program's own arithmetic (R61): hundreds, tens, units. -/
def decimalDigits (sample : Byte) : Nat × Nat × Nat :=
  (sample.toNat / 100, sample.toNat / 10 % 10, sample.toNat % 10)

/-- What an item of program text becomes in a host program (R57, R59 to R61). -/
def assemble (item : SourceItem) : Except AsmError (List HostItem) :=
  match item with
  | .configure => .ok [.command .configure]
  | .transmitByte v =>
    if item.wellFormed then .ok [.command (.transmitByte (BitVec.ofNat 8 v))]
    else .error (.valueOutOfRange v)
  | .delayUs n => .ok [.delayUs n]
  | .delayMs n => .ok [.delayMs n]
  | .transmitSample => .ok [.transmitSample]
  | .transmitDecimalLine d2 d1 d0 =>
    if item.wellFormed then .ok ((decimalLine d2 d1 d0).map fun v => .command (.transmitByte v))
    else .error (.digitOutOfRange d2 d1 d0)

/-- A whole program, item by item. -/
def assembleProgram : List SourceItem → Except AsmError (List HostItem)
  | [] => .ok []
  | item :: rest =>
    match assemble item, assembleProgram rest with
    | .ok here, .ok after => .ok (here ++ after)
    | .error e, _ => .error e
    | .ok _, .error e => .error e

/-- The ticks from the beginning of an item to the beginning of the next (R62). -/
def HostItem.ticksTaken (p : Params) : HostItem → Nat
  | .command .configure => 1
  | .command (.transmitByte _) => p.frameTicks + 1
  | .transmitSample => p.frameTicks + 1
  | .delayUs n => (HostItem.delayUs n).delayTicks
  | .delayMs n => (HostItem.delayMs n).delayTicks

/-- `a[0], ..., a[N]` of a program that begins in tick `a` (R62). -/
def timeline (p : Params) (a : Nat) : List HostItem → List Nat
  | [] => [a]
  | item :: rest => a :: timeline p (a + item.ticksTaken p) rest

/-- The state with a host program to run from its first item on, by the sequential host or the eager
one (R58). -/
def State.withProgram (s : State) (program : List HostItem) (eager : Bool) : State :=
  { s with caller := { s.caller with program := program, spent := 0, eager := eager } }

/-! ### Text. What R57 leaves open of the format is DESIGN CHOICE, log entry 21. -/

/-- A digit in the given base, `a` to `f` of either case standing for 10 to 15 (R57: decimal, `0x` and `0b`;
log entry 21). -/
def digitValue (base : Nat) (c : Char) : Option Nat :=
  let n := c.toNat
  let d :=
    if 48 ≤ n ∧ n ≤ 57 then n - 48
    else if 97 ≤ n ∧ n ≤ 102 then n - 87
    else if 65 ≤ n ∧ n ≤ 70 then n - 55
    else base
  if d < base then some d else none

/-- The digits of a number after the ones that gave `acc`. -/
def digitsValue (base acc : Nat) : List Char → Option Nat
  | [] => some acc
  | c :: rest =>
    match digitValue base c with
    | some d => digitsValue base (base * acc + d) rest
    | none => none

/-- A number in decimal, `0x` hexadecimal or `0b` binary. R57 gives these bases for `<v>`; the model takes the
same for every operand: DESIGN CHOICE, log entry 21. -/
def parseNumber : List Char → Option Nat
  | [] => none
  | ['0', 'x'] => none
  | ['0', 'b'] => none
  | '0' :: 'x' :: digits => digitsValue 16 0 digits
  | '0' :: 'b' :: digits => digitsValue 2 0 digits
  | digits => digitsValue 10 0 digits

/-- The line without its comment: "`;` starts a comment" (R57). -/
def dropComment (line : List Char) : List Char := line.takeWhile fun c => c != ';'

/-- The words of a line, split at blanks and tabs (log entry 21); `word` is the word being read, last character
first. -/
def wordsFrom (word : List Char) : List Char → List (List Char)
  | [] => if word.isEmpty then [] else [word.reverse]
  | c :: rest =>
    if c = ' ' ∨ c = '\t' then
      if word.isEmpty then wordsFrom [] rest else word.reverse :: wordsFrom [] rest
    else wordsFrom (c :: word) rest

/-- The mnemonics of R57, R59, R60 and R61, each with the item it makes of its numbers. The numbers of
`delay_us`, `delay_ms` and `transmit_decimal_line` come in any of the bases R57 gives for `<v>`: DESIGN
CHOICE, log entry 21. -/
def itemOf (mnemonic : String) (numbers : List Nat) : Option SourceItem :=
  match numbers with
  | [] =>
    if mnemonic = "configure" then some .configure
    else if mnemonic = "transmit_sample" then some .transmitSample
    else none
  | [n] =>
    if mnemonic = "transmit_byte" then some (.transmitByte n)
    else if mnemonic = "delay_us" then some (.delayUs n)
    else if mnemonic = "delay_ms" then some (.delayMs n)
    else none
  | [d2, d1, d0] =>
    if mnemonic = "transmit_decimal_line" then some (.transmitDecimalLine d2 d1 d0) else none
  | _ => none

/-- One line of program text: an item, or nothing on a blank or comment line (R57). Every operand is read by
`parseNumber`, in the three bases R57 gives for `<v>` (the spec is silent on `<n>` and the digits of R59 and
R61), and a line that is none of the items is refused: DESIGN CHOICE, log entry 21. -/
def parseLine (line : List Char) : Except AsmError (Option SourceItem) :=
  match wordsFrom [] (dropComment line) with
  | [] => .ok none
  | mnemonic :: operands =>
    match operands.mapM parseNumber with
    | none => .error .notAnItem
    | some numbers =>
      match itemOf (String.ofList mnemonic) numbers with
      | some item => .ok (some item)
      | none => .error .notAnItem

/-- A program text, one item per line (R57); the first line refused refuses it (log entry 21). -/
def parseProgram : List (List Char) → Except AsmError (List SourceItem)
  | [] => .ok []
  | line :: rest =>
    match parseLine line, parseProgram rest with
    | .ok (some item), .ok items => .ok (item :: items)
    | .ok none, .ok items => .ok items
    | .error e, _ => .error e
    | .ok _, .error e => .error e

end Sys2Proof.Machine
end

