-- ==== Sys2Proof/Machine/Trace.lean ====
section
/-! DEFINITION. The run from a state, tick by tick, and what is observed of it (43_waveform_and_receiver.md R96). -/

namespace Sys2Proof.Machine

/-- The state one tick later, as a total function (R11, R83). No step faults or refuses; a state that
could not go on would stay. -/
def State.nextState (s : State) : State :=
  match step s with
  | .next t => t
  | .fault _ => s
  | .refused _ => s

/-- `S[a + n]`, where `s` is `S[a]` (R11). -/
def State.after (s : State) : Nat → State
  | 0 => s
  | n + 1 => (s.after n).nextState

/-- `wire[a + n]` (R24, R96). -/
def State.wireAt (s : State) (n : Nat) : Wire := (s.after n).wire

/-- `busy[a + n]` (R22, R96). -/
def State.busyAt (s : State) (n : Nat) : Bool := (s.after n).busy

/-- The level a receiver reads in tick `a + n` (R24). -/
def State.levelAt (s : State) (n : Nat) : Level := (s.after n).levelRead

/-- The observation of the first `n` ticks of a run: the trace of the wire, together with `busy` (R96). -/
def State.trace (s : State) (n : Nat) : List (Wire × Bool) :=
  (List.range n).map fun t => (s.wireAt t, s.busyAt t)

/-- `f` is a falling edge of the wire (R96). -/
abbrev State.fallingEdge (s : State) (f : Nat) : Prop :=
  1 ≤ f ∧ s.wireAt (f - 1) = .driven high ∧ s.wireAt f = .driven low

/-- The ticks `a` to `b` are a run of level `l`, a LOW run or a HIGH run: a maximal set of consecutive
ticks with the wire at `l` (R96; ticks before the run do not count, DESIGN CHOICE, log entry 22). -/
abbrev State.levelRun (s : State) (l : Level) (a b : Nat) : Prop :=
  a ≤ b ∧ (∀ t, t ≤ b → a ≤ t → s.wireAt t = .driven l) ∧ s.wireAt (b + 1) ≠ .driven l ∧
    (a = 0 ∨ s.wireAt (a - 1) ≠ .driven l)

end Sys2Proof.Machine
end

