-- ==== Sys2Proof/Machine/Waveform.lean ====
section
/-! DEFINITION. The ten slots of a frame: their levels (43_waveform_and_receiver.md R97), their ticks
(41_transmit_byte.md R77) and their phases (10_state.md R15). Slot numbers run from 0 to 9. -/

namespace Sys2Proof.Machine

/-- `Slot(v, k)` (R97). -/
def slotLevel (v : Byte) (k : Nat) : Level :=
  if k = 0 then low else if k ≤ 8 then v.getLsbD (k - 1) else high

/-- `FrameWord(v) = 0x200 | (v << 1)` (R97). -/
def frameWord (v : Byte) : BitVec 10 := 0x200#10 ||| (v.setWidth 10 <<< 1)

/-- `len(k)` (R104): the ticks slot `k` lasts (R101). -/
def slotLength (p : Params) (k : Nat) : Nat := if k = 0 ∨ k = 9 then p.edgeTicks else p.dataPeriod

/-- `off(k)` (R104): the ticks from the first tick of the frame to the first of slot `k`. -/
def slotOffset (p : Params) (k : Nat) : Nat := if k = 0 then 0 else p.edgeTicks + (k - 1) * p.dataPeriod

/-- `first(k) - a` (R77), for a command accepted in tick `a`. -/
def slotFirst (p : Params) (k : Nat) : Nat := slotOffset p k + 1

/-- `last(k) - a` (R77). -/
def slotLast (p : Params) (k : Nat) : Nat := slotOffset p k + slotLength p k

/-- The phase whose slot `k` is (R15). -/
def slotPhase (k : Nat) : Phase := if k = 0 then .start else if k ≤ 8 then .data (k - 1) else .stop

/-- What `SHREG` holds in slot `k` of a frame of `v` (R25 (d)). -/
def slotShreg (v : Byte) (k : Nat) : Byte := v >>> (k - 1)

/-- `z` of R102: the number of consecutive 0 bits at the least-significant end of `v`. -/
def lowZeros (v : Byte) : Nat := ((List.range 8).takeWhile fun i => !v.getLsbD i).length

end Sys2Proof.Machine
end

