-- ==== Sys2Proof/Machine/Receiver.lean ====
section
/-! DEFINITION. The reference receiver (43_waveform_and_receiver.md R104), the oracle of the round trip, and the
receiver with a clock of its own (R106). Neither is part of the block. A receiver reads a function from ticks to
levels. -/

namespace Sys2Proof.Machine

/-- `s(k) = f + off(k) + floor(len(k) / 2)` (R104). -/
def sampleTick (p : Params) (f k : Nat) : Nat := f + slotOffset p k + slotLength p k / 2

/-- The number whose bit `k - 1` is the level sampled for slot `k`, `k` from 1 to 8 (R104). -/
def assembleByte (sampled : Nat → Level) : Nat :=
  ((List.range 8).map fun i => (sampled (i + 1)).toNat * 2 ^ i).sum

/-- `Recv(f)` (R104). -/
def receive (p : Params) (levels : Nat → Level) (f : Nat) : Nat :=
  assembleByte fun k => levels (sampleTick p f k)

/-- The frame at `f` is well-formed (R104). -/
abbrev frameWellFormed (p : Params) (levels : Nat → Level) (f : Nat) : Prop :=
  levels (sampleTick p f 0) = low ∧ levels (sampleTick p f 9) = high

/-! ### A receiver with a clock of its own (R106)

Its sampling times are PRESUMED, the spec's own general knowledge G4, log entry 17. -/

/-- A receiver's bit period `R` in ticks, "any positive real" (R106). -/
structure BitPeriod where
  ticks : ℝ
  positive : 0 < ticks

/-- `t` is the tick in which the sampling time `f + (k + 1/2) * R` of slot `k` lies (R106). -/
def BitPeriod.samplesIn (r : BitPeriod) (f k t : Nat) : Prop :=
  (t : ℝ) ≤ f + (k + 1 / 2) * r.ticks ∧ f + (k + 1 / 2) * r.ticks < t + 1

/-- R106's window for slot `k`: `off(k) <= (k + 1/2) * R < off(k) + len(k)`. -/
def BitPeriod.readsSlot (r : BitPeriod) (p : Params) (k : Nat) : Prop :=
  (slotOffset p k : ℝ) ≤ (k + 1 / 2) * r.ticks ∧ (k + 1 / 2) * r.ticks < slotOffset p k + slotLength p k

/-- Every slot of a frame is read inside its own ticks (R106). -/
def BitPeriod.readsFrame (r : BitPeriod) (p : Params) : Prop := ∀ k, k < 10 → r.readsSlot p k

/-- A receiver of bit period `r` reads the number `n` from the falling edge `f` (R106): `n` is assembled
from the levels of the ticks it samples in. -/
def BitPeriod.reads (r : BitPeriod) (levels : Nat → Level) (f n : Nat) : Prop :=
  ∃ tick : Nat → Nat, (∀ k, r.samplesIn f k (tick k)) ∧ n = assembleByte fun k => levels (tick k)

/-- A bit period that is a fraction `num / den` of ticks, with which the receiver can be evaluated. -/
structure PeriodFraction where
  num : Nat
  den : Nat
  numPositive : 0 < num
  denPositive : 0 < den
deriving DecidableEq, Repr

/-- The fraction `q` is the period `r`. -/
def PeriodFraction.is (q : PeriodFraction) (r : BitPeriod) : Prop := r.ticks * q.den = q.num

/-- The tick of the sampling time `f + (k + 1/2) * num / den`. -/
def PeriodFraction.sampleTick (q : PeriodFraction) (f k : Nat) : Nat := f + (2 * k + 1) * q.num / (2 * q.den)

/-- R106's window for slot `k`, with the fractions cleared. -/
abbrev PeriodFraction.readsSlot (q : PeriodFraction) (p : Params) (k : Nat) : Prop :=
  slotOffset p k * (2 * q.den) ≤ (2 * k + 1) * q.num ∧
    (2 * k + 1) * q.num < (slotOffset p k + slotLength p k) * (2 * q.den)

/-- Every slot of a frame is read inside its own ticks (R106). -/
abbrev PeriodFraction.readsFrame (q : PeriodFraction) (p : Params) : Prop := ∀ k, k < 10 → q.readsSlot p k

/-- What a receiver of bit period `q` reads from the falling edge `f` (R106). -/
def PeriodFraction.receive (q : PeriodFraction) (levels : Nat → Level) (f : Nat) : Nat :=
  assembleByte fun k => levels (q.sampleTick f k)

end Sys2Proof.Machine
end

