-- ==== Sys2Proof/Safety.lean ====
section
/-! DEFINITION. What counts as a safe run: the invariant of the reachable states (10_state.md R25) and the duties of
the agents around the block, which are premises of claims and no faults of the machine (60 R108; 70 R128 to R133).
Three of those duties need no premise: the environment has no move that writes bit `PIN` (R129), time is the tick
(R131), and an illegal setting cannot be written down (R7). -/

namespace Sys2Proof.Machine

/-- No reset in the `n` ticks from the one `s` stands at (the premise of R77, R98, R105). -/
abbrev State.noReset (s : State) (n : Nat) : Prop := ∀ k, k < n → s.rstPin[k]?.getD false = false

/-- Both port registers have one bit per pin (R19, R20: `PORT_WIDTH` bits). -/
abbrev State.portsSized (s : State) : Prop :=
  s.portdir.length = s.cfg.portWidth ∧ s.portlat.length = s.cfg.portWidth

/-- `TMR` fits its `TMR_WIDTH` bits (R17). -/
abbrev State.timerFits (s : State) : Prop := s.tmr < 2 ^ s.cfg.tmrWidth

/-- `PHASE = DATA_i`. -/
abbrev State.inData (s : State) (i : Nat) : Prop := i < 8 ∧ s.phase = .data i

/-- The invariant of the reachable states (R25), as far as it speaks of one state: (d) and (e) need the
run as well and stand as statements about runs. -/
structure State.Inv (s : State) : Prop where
  /-- `PORTDIR` and `PORTLAT` are `PORT_WIDTH` bits wide (R19, R20). -/
  ports : s.portsSized
  /-- `TMR` is `TMR_WIDTH` bits wide (R17). -/
  timerFits : s.timerFits
  /-- (a). -/
  timerZero : s.tmr = 0 ↔ s.phase = .idle
  /-- (b), `START` and `STOP`. -/
  timerEdge : s.phase = .start ∨ s.phase = .stop → s.tmr ≤ s.cfg.edgeTicks
  /-- (b), `DATA_i`. -/
  timerData : ∀ i, s.inData i → s.tmr ≤ s.cfg.dataPeriod
  /-- (c), `START`. -/
  lineStart : s.phase = .start → s.line = low
  /-- (c), `STOP`. -/
  lineStop : s.phase = .stop → s.line = high
  /-- (c), `DATA_i`. -/
  lineData : ∀ i, s.inData i → s.line = s.shreg.getLsbD 0
  /-- (d): in `DATA_i` only the `8 - i` bits still to be sent are left. -/
  shregData : ∀ i, s.inData i → s.shreg.toNat < 2 ^ (8 - i)
  /-- (d): `SHREG = 0` in `STOP` and in `IDLE`. -/
  shregDone : s.phase = .stop ∨ s.phase = .idle → s.shreg = 0
  /-- (e): an idle line that is driven rests at HIGH. -/
  lineIdle : s.phase = .idle → s.dir = false → s.line = high

/-- After a tick from `s` to `t`, every sibling bit of both registers is what the environment gave it in
that tick, and both registers have their width (R35): nothing the block did reaches a sibling. -/
abbrev State.siblingsFollow (s t : State) : Prop :=
  t.portsSized ∧ ∀ j, j < s.cfg.portWidth → j ≠ s.cfg.pin → t.dirBit j = s.envDir j ∧ t.latBit j = s.envLat j

/-- No `TRANSMIT_BYTE` is accepted in tick `t` of the run from `s`. -/
abbrev State.noFrameBegins (s : State) (t : Nat) : Prop :=
  ∀ v, (s.after t).accepts ≠ some (.transmitByte v)

end Sys2Proof.Machine
end

