-- ==== Sys2Proof/Certificates/Slice0/Obligations.lean ====
section
/-! DEFINITION. The statements for the provers. Each docstring names the rule of spec/ it formalises. A run is counted
from the tick `s` stands at, so `s.after n` is `S[a + n]` where `s` is `S[a]`; `s.accepts = some i` says that `i` is
accepted in that tick (R53), `s.noReset n` that `rst = 0` in it and the `n - 1` after it. -/

open Sys2Proof Sys2Proof.Machine

/-! ### Commands and their words -/

/-- R50: the opcode map as match and mask; every one of the 512 words is exactly one of the two
operations. -/
def Obligations.EveryCommandWordIsOneOfTwoOperations : Prop :=
  ∀ w : Command,
    (opField w = false ↔ w &&& 0x100#9 = 0x000#9) ∧ (opField w = true ↔ w &&& 0x100#9 = 0x100#9) ∧
    (w &&& 0x100#9 = 0x000#9 → decode w = .configure) ∧
    (w &&& 0x100#9 = 0x100#9 → decode w = .transmitByte (valueField w)) ∧
    ¬(w &&& 0x100#9 = 0x000#9 ∧ w &&& 0x100#9 = 0x100#9)

/-- R51, R52: decoding undoes encoding for every instruction, on the port and as a table word; encoding undoes
decoding up to the ignored field of `CONFIGURE`. No rule gives a command word in whole bytes: that a table
word may have 16 bits, and that two bytes spell it with the first the less significant, is the model's
choice (DESIGN CHOICE, log entry 8). -/
def Obligations.DecodeOfEncodeIsTheInstruction : Prop :=
  (∀ i : Instr, i.wellFormed = true ∧ decode (encode i) = i ∧
      decodeTableWord 9 (encode i).toNat = some i ∧ decodeTableWord 16 (encode i).toNat = some i ∧
      decodeBytes [(encode i).setWidth 8, ((encode i) >>> 8).setWidth 8] = .ok i) ∧
    ∀ w : Command, encode (decode w) = if opField w then w else 0x000#9

/-- The words of 95 section 2.1 and of its programs, written out, decode to the operations they stand for. -/
def Obligations.WordsOfTheSpecDecode : Prop :=
  decode 0b000000000#9 = .configure ∧ decode 0b011111111#9 = .configure ∧
    decode 0b010110100#9 = .configure ∧ decode 0b100000000#9 = .transmitByte 0 ∧
    decode 0b111111111#9 = .transmitByte 255 ∧ decode 0b110110100#9 = .transmitByte 180 ∧
    decode 0b101000001#9 = .transmitByte 65 ∧ decode 0b110000000#9 = .transmitByte 128

/-- R49, R63: every command is 9 bits, so a number of 9 bits decodes as the word it is. What becomes of a wider
number no rule says, since none can be presented: that it is rejected by name, and not cut to 9 bits, is the
model's choice (DESIGN CHOICE, log entry 8). -/
def Obligations.CommandsAreNineBits : Prop :=
  ∀ n, (n < 512 → decodeWord n = .ok (decode (BitVec.ofNat 9 n))) ∧
    (512 ≤ n → decodeWord n = .error (.widerThanCommandWord n))

/-- R57: the assembler's words, and its refusal of a value outside 0 to 255. -/
def Obligations.AssemblerWords : Prop :=
  assemble .configure = .ok [.command .configure] ∧ (encode .configure).toNat = 0x000 ∧
    ∀ v, (v ≤ 255 → ∃ b : Byte, assemble (.transmitByte v) = .ok [.command (.transmitByte b)] ∧
            b.toNat = v ∧ (encode (.transmitByte b)).toNat = (0x100 ||| v)) ∧
      (255 < v → assemble (.transmitByte v) = .error (.valueOutOfRange v))

/-- R61: the expansion of `transmit_decimal_line`, and the digits of a sample. The code `48 + d` and the
digit order are the spec's own (G1, D21; log entry 10). -/
def Obligations.DecimalLineExpansion : Prop :=
  (∀ d2 d1 d0, d2 ≤ 9 → d1 ≤ 9 → d0 ≤ 9 → ∃ c2 c1 c0 : Byte,
      assemble (.transmitDecimalLine d2 d1 d0) =
        .ok [.command (.transmitByte c2), .command (.transmitByte c1), .command (.transmitByte c0),
          .command (.transmitByte 13), .command (.transmitByte 10)] ∧
      c2.toNat = 48 + d2 ∧ c1.toNat = 48 + d1 ∧ c0.toNat = 48 + d0) ∧
    ∀ v : Byte, (decimalDigits v).1 ≤ 9 ∧ (decimalDigits v).2.1 ≤ 9 ∧ (decimalDigits v).2.2 ≤ 9 ∧
      100 * (decimalDigits v).1 + 10 * (decimalDigits v).2.1 + (decimalDigits v).2.2 = v.toNat

/-! ### Every step of the machine -/

/-- R108: every command word, every operand and every time of presentation is legal: no operation and no
step faults or is refused, in any state, and there is no fault at all. -/
def Obligations.NothingFaultsOrIsRefused : Prop :=
  (∀ (i : Instr) (s : State), ∃ t, exec i s = .next t) ∧ (∀ s : State, ∃ t, step s = .next t) ∧ ¬Nonempty Fault

/-- A step is one execution of the command on the port; with none it is a quiet tick (R55); a command is
accepted if and only if `rst = 0`, it is presented and the block is idle (R53), and then the step is its
execution; and a word placed by `withFetchWord` is the command the very next step executes, or no command
where the decoder rejects it (DESIGN CHOICE, log entry 8). -/
def Obligations.StepExecutesTheCommandOnThePort : Prop :=
  (∀ (s : State) w, s.command = some w → step s = exec (decode w) s) ∧
    (∀ s : State, s.command = none → step s = .next s.quietTick) ∧
    (∀ (s : State) i, s.accepts = some i ↔
      s.rst = false ∧ s.phase = .idle ∧ ∃ w, s.command = some w ∧ decode w = i) ∧
    (∀ (s : State) i, s.accepts = some i → step s = exec i s) ∧
    (∀ (s : State) pins rest, s.cmdPort = pins :: rest →
      (pins.valid = true → s.command = some pins.word) ∧ (pins.valid = false → s.command = none)) ∧
    (∀ (s : State) nbits w i, decodeTableWord nbits w = some i →
      step (s.withFetchWord nbits w) = exec i (s.withFetchWord nbits w)) ∧
    ∀ (s : State) nbits w, decodeTableWord nbits w = none → (s.withFetchWord nbits w).command = none

/-- The run is the host's run of the core, and each tick moves every agent on by one: the configuration
stays, each schedule loses its head, the directly driven port holds the program back. The schedules are
the model's own (log entries 1 and 8). -/
def Obligations.EveryTickMovesTheAgentsOn : Prop :=
  (∀ (s : State) n, Sys2Proof.core.run n s = .next (s.after n)) ∧
    ∀ s : State, ∃ t, step s = .next t ∧ t.cfg = s.cfg ∧ t.ticks = s.ticks + 1 ∧
      t.rstPin = s.rstPin.tail ∧ t.cmdPort = s.cmdPort.tail ∧ t.env = s.env.tail ∧ t.envTail = s.envTail ∧
      (s.cmdPort ≠ [] → t.caller = s.caller)

/-! ### Reset -/

/-- The values R28 gives the state after reset, at `State.reset`; `LINE` and the sibling bits, which R28
leaves unspecified, are the model's choice (log entries 2, 3) and are not stated. -/
def Obligations.ResetStateHasTheSpecifiedValues : Prop :=
  State.reset.phase = .idle ∧ State.reset.tmr = 0 ∧ State.reset.shreg = 0 ∧ State.reset.dir = true ∧
    State.reset.rst = false ∧ State.reset.busy = false ∧ State.reset.cmdReady = true ∧
    State.reset.lineOe = false ∧ State.reset.dirQ = true ∧ State.reset.wire = .z ∧
    State.reset.portsSized

/-- R125: the reset action, whatever the state and the command on the port; `LINE` is the draw, and
nothing is known of it. -/
def Obligations.ResetActionGivesTheResetState : Prop :=
  ∀ s : State, s.rst = true → s.cmdReady = false ∧ s.accepts = none ∧
    ∃ t, step s = .next t ∧ (∀ i, exec i s = .next t) ∧
      t.phase = .idle ∧ t.tmr = 0 ∧ t.shreg = 0x00 ∧ t.dir = true ∧
      t.line = Config.freeLineAfterReset s.ticks ∧ s.siblingsFollow t ∧
      t.busy = false ∧ t.lineOe = false ∧ t.dirQ = true ∧ t.wire = .z ∧ (t.rst = false → t.cmdReady = true)

/-- R126: a frame that a reset cuts leaves no trace: the next tick is idle with the wire undriven, and the
step is the same whatever the sequencer was doing. R125 leaves `LINE` any level: that the two steps draw the
same one is the model's choice, whose draw is a function of the tick alone (DESIGN CHOICE, log entry 4). -/
def Obligations.ResetForgetsTheFrame : Prop :=
  ∀ (s : State) (p : Phase) (n : Nat) (v : Byte), s.rst = true → s.phase ≠ .idle →
    step (s.withSequencer p n v) = step s ∧
      (s.after 1).phase = .idle ∧ (s.after 1).shreg = 0 ∧ s.wireAt 1 = .z ∧ s.busyAt 1 = false ∧
      ((s.after 1).rst = false → (s.after 1).cmdReady = true)

/-! ### CONFIGURE -/

/-- R64, R90: an accepted `CONFIGURE`. Both bits in the one tick; `PHASE`, `TMR`, `SHREG` and the sibling
bits are not written; `busy` stays 0; `VALUE` is ignored; during a frame it is not accepted. -/
def Obligations.ConfigureWhenAccepted : Prop :=
  ∀ s : State, s.rst = false → s.phase = .idle →
    ∃ t, exec .configure s = .next t ∧ t.dir = false ∧ t.line = high ∧
      t.phase = .idle ∧ t.tmr = s.tmr ∧ t.shreg = s.shreg ∧ t.cfg = s.cfg ∧ s.siblingsFollow t ∧
      t.lineOe = true ∧ t.lineOut = high ∧ t.dirQ = false ∧ t.wire = .driven high ∧
      t.busy = false ∧ (t.rst = false → t.cmdReady = true) ∧
      (∀ w, s.command = some w → opField w = false → s.accepts = some .configure ∧ step s = .next t) ∧
      ∀ r : State, r.phase ≠ .idle → r.accepts = none

/-- R65: a further `CONFIGURE` changes no field the block owns and no output, however many there are, and
after frames too. -/
def Obligations.ConfigureIsIdempotent : Prop :=
  (∀ s : State, s.rst = false → s.phase = .idle → s.dir = false → s.line = high →
      ∃ t, exec .configure s = .next t ∧ t.owned = s.owned ∧ t.busy = s.busy ∧ t.lineOut = s.lineOut ∧
        t.lineOe = s.lineOe ∧ t.dirQ = s.dirQ ∧ t.wire = s.wire) ∧
    (∀ (s : State) n, (∀ k, k ≤ n → (s.after k).accepts = some .configure) →
      (s.after (n + 1)).owned = (s.after 1).owned) ∧
    ∀ s : State, s.Inv → s.dir = false → s.accepts = some .configure → (s.after 1).owned = s.owned

/-- R52: the 256 words with `OP = 0` all perform the same `CONFIGURE`. -/
def Obligations.AllConfigureWordsActAlike : Prop :=
  ∀ (s : State) (w w' : Command), opField w = false → opField w' = false →
    decode w = .configure ∧ step (s.present w) = step (s.present w')

/-! ### TRANSMIT_BYTE: acceptance and the sequencer -/

/-- R69: an accepted `TRANSMIT_BYTE`. `DIR` is neither written nor examined; from the next tick the wire
is LOW if `DIR = 0`. -/
def Obligations.TransmitByteWhenAccepted : Prop :=
  ∀ (s : State) (v : Byte), s.rst = false → s.phase = .idle →
    ∃ t, exec (.transmitByte v) s = .next t ∧ t.shreg = v ∧ t.line = low ∧ t.phase = .start ∧
      t.tmr = s.cfg.edgeTicks ∧ t.dir = s.dir ∧ t.cfg = s.cfg ∧ s.siblingsFollow t ∧
      t.wire = (if s.dir = false then .driven low else .z) ∧
      ∀ w, s.command = some w → opField w = true → valueField w = v →
        s.accepts = some (.transmitByte v) ∧ step s = .next t

/-- R70: while `TMR > 1` a busy tick only counts down, whatever is on the command port; a slot loaded with
`n` stays for exactly `n` ticks. -/
def Obligations.SlotIsHeldForItsTicks : Prop :=
  (∀ s : State, s.rst = false → s.phase ≠ .idle → 1 < s.tmr →
      ∃ t, step s = .next t ∧ (∀ i, exec i s = .next t) ∧ t.tmr = s.tmr - 1 ∧
        t.phase = s.phase ∧ t.shreg = s.shreg ∧ t.line = s.line ∧ t.dir = s.dir ∧ s.siblingsFollow t) ∧
    ∀ (s : State) n, s.phase ≠ .idle → s.tmr = n → 1 ≤ n → s.noReset n →
      (∀ m, m < n → (s.after m).phase = s.phase ∧ (s.after m).tmr = n - m ∧
        (s.after m).line = s.line ∧ (s.after m).dir = s.dir ∧ (s.after m).shreg = s.shreg) ∧
      (s.after n).phase = s.phase.succ

/-- R71: the end of the Start slot. `SHREG` is not shifted; its bit 0 is `SHREG & 0x01`. -/
def Obligations.StartSlotEnds : Prop :=
  ∀ s : State, s.rst = false → s.phase = .start → s.tmr ≤ 1 →
    ∃ t, step s = .next t ∧ (∀ i, exec i s = .next t) ∧ t.line = s.shreg.getLsbD 0 ∧
      (t.line = high ↔ s.shreg &&& 0x01#8 = 0x01#8) ∧ t.phase = .data0 ∧
      t.tmr = s.cfg.dataPeriod ∧ t.shreg = s.shreg ∧ t.dir = s.dir ∧ s.siblingsFollow t

/-- R72: the end of a data slot other than the last; it keeps `LINE = SHREG[0]`. -/
def Obligations.DataSlotEnds : Prop :=
  ∀ (s : State) i, i ≤ 6 → s.rst = false → s.phase = .data i → s.tmr ≤ 1 →
    ∃ t, step s = .next t ∧ (∀ c, exec c s = .next t) ∧ t.line = s.shreg.getLsbD 1 ∧
      t.shreg = s.shreg >>> 1 ∧ t.shreg.getLsbD 7 = false ∧ t.phase = .data (i + 1) ∧
      t.tmr = s.cfg.dataPeriod ∧ t.line = t.shreg.getLsbD 0 ∧ t.dir = s.dir ∧ s.siblingsFollow t

/-- R73: the end of the last data slot: the level does not depend on `SHREG`, and in every state of the
invariant `SHREG` becomes 0. -/
def Obligations.LastDataSlotEnds : Prop :=
  ∀ s : State, s.rst = false → s.phase = .data7 → s.tmr ≤ 1 →
    ∃ t, step s = .next t ∧ (∀ i, exec i s = .next t) ∧ t.line = high ∧ t.shreg = s.shreg >>> 1 ∧
      (s.Inv → t.shreg = 0x00#8) ∧ t.phase = .stop ∧ t.tmr = s.cfg.edgeTicks ∧ t.dir = s.dir ∧
      s.siblingsFollow t

/-- R74: the end of the Stop slot: `LINE` is not written, and a command presented in this tick is not
accepted. -/
def Obligations.StopSlotEnds : Prop :=
  ∀ s : State, s.rst = false → s.phase = .stop → s.tmr ≤ 1 → s.accepts = none ∧
    ∃ t, step s = .next t ∧ (∀ i, exec i s = .next t) ∧ t.phase = .idle ∧ t.tmr = 0 ∧ t.line = s.line ∧
      (s.Inv → t.line = high) ∧ t.shreg = s.shreg ∧ t.dir = s.dir ∧ s.siblingsFollow t ∧
      (t.rst = false → t.cmdReady = true)

/-- R75: idle with no command: no field the block owns changes, for any number of ticks; the line rests
at its level. -/
def Obligations.IdleWithoutCommandChangesNothing : Prop :=
  (∀ s : State, s.rst = false → s.phase = .idle → s.command = none →
      ∃ t, step s = .next t ∧ t.owned = s.owned ∧ s.siblingsFollow t) ∧
    ∀ (s : State) n, s.phase = .idle → s.noReset n → (∀ k, k < n → (s.after k).command = none) →
      (s.after n).owned = s.owned ∧ s.wireAt n = s.wire

/-- R54: a command presented to a busy block has no effect on the next state at all; and the hold is
lifted by the block's own ticks, within `FRAME_TICKS` of them. -/
def Obligations.CommandWhileBusyHasNoEffect : Prop :=
  (∀ (s : State) (w u : Command), s.phase ≠ .idle →
      (s.present w).accepts = none ∧
        step (s.present w) = step (s.presentNothing u)) ∧
    ∀ s : State, s.Inv → s.noReset s.cfg.frameTicks →
      ∃ n, n ≤ s.cfg.frameTicks ∧ (s.after n).phase = .idle

/-- R55: with `cmd_valid = 0` the word on the port is ignored entirely, and an idle block that accepts no
command keeps its state. -/
def Obligations.WordWithoutValidIsIgnored : Prop :=
  (∀ (s : State) (w u : Command), step (s.presentNothing w) = step (s.presentNothing u)) ∧
    ∀ s : State, s.rst = false → s.phase = .idle → s.accepts = none →
      ∃ t, step s = .next t ∧ t.owned = s.owned

/-- R56: `VALUE` is copied into `SHREG` in the acceptance tick, and whatever the host does with the command
port afterwards has no effect on the frame. -/
def Obligations.OperandIsSampledOnce : Prop :=
  ∀ (s : State) (v : Byte) (port : List CommandPins) (host : Caller), s.accepts = some (.transmitByte v) →
    s.noReset (s.cfg.frameTicks + 1) →
    (s.after 1).shreg = v ∧
      ∀ n, n ≤ s.cfg.frameTicks →
        (((s.after 1).withHostSide port host).after n).owned = ((s.after 1).after n).owned ∧
          (((s.after 1).withHostSide port host).after n).portdir = ((s.after 1).after n).portdir ∧
          (((s.after 1).withHostSide port host).after n).portlat = ((s.after 1).after n).portlat

/-! ### The shared port registers -/

/-- R35: for every `j != PIN` the next value of `PORTDIR[j]` and `PORTLAT[j]` is the environment's,
whatever command is presented and whatever the block does; bit `PIN` is the block's. -/
def Obligations.SiblingBitsBelongToTheEnvironment : Prop :=
  (∀ s : State, ∃ t, step s = .next t ∧ s.siblingsFollow t) ∧
    (∀ (i : Instr) (s : State), ∃ t, exec i s = .next t ∧ s.siblingsFollow t) ∧
    ∀ (s : State) (o : Owned), (s.commit o).owned = o ∧ s.siblingsFollow (s.commit o)

/-- R39: the environment can give the sibling bits any values at any tick; an idle one leaves them as they
are, and a free one gives them free values. -/
def Obligations.EnvironmentGivesSiblingBitsAnyValue : Prop :=
  (∀ (s : State) (d l : Nat → Level) rest,
      s.env = { dir := (List.range s.cfg.portWidth).map fun j => (j, d j),
                lat := (List.range s.cfg.portWidth).map fun j => (j, l j) } :: rest →
      ∃ t, step s = .next t ∧
        ∀ j, j < s.cfg.portWidth → j ≠ s.cfg.pin → t.dirBit j = d j ∧ t.latBit j = l j) ∧
    (∀ s : State, s.env = [] → s.envTail = .idle → ∃ t, step s = .next t ∧
        ∀ j, j < s.cfg.portWidth → j ≠ s.cfg.pin → t.dirBit j = s.dirBit j ∧ t.latBit j = s.latBit j) ∧
    ∀ s : State, s.env = [] → s.envTail = .free → ∃ t, step s = .next t ∧
      ∀ j, j < s.cfg.portWidth → j ≠ s.cfg.pin →
        t.dirBit j = Config.freeSiblingDir s.ticks j ∧ t.latBit j = Config.freeSiblingLat s.ticks j

/-- R36, R39: no rule of the block reads a port register or the environment: two runs that agree on the
block's own fields and on the command side agree on them for ever, whatever the sibling bits and the
environments are. The runs may hold resets: that both then draw the same `LINE`, which R125 leaves any level,
is the model's choice, whose draw is a function of the tick alone (DESIGN CHOICE, log entry 4); the premise
on `ticks` is there for it and for the free samples (log entry 6). -/
def Obligations.EnvironmentCannotDisturbTheBlock : Prop :=
  ∀ s s' : State, s'.cfg = s.cfg → s'.owned = s.owned → s'.ticks = s.ticks → s'.rstPin = s.rstPin →
    s'.cmdPort = s.cmdPort → s'.caller = s.caller → ∀ n, (s'.after n).owned = (s.after n).owned

/-- R20, R34: a tick in which `LINE` changes is a reset, the acceptance of a command, or the end of a slot
that another slot follows. -/
def Obligations.LineIsWrittenOnlyAtSlotBoundaries : Prop :=
  ∀ s : State, ∃ t, step s = .next t ∧
    (t.line ≠ s.line → s.rst = true ∨ s.accepts = some .configure ∧ t.line = high ∨
      (∃ v, s.accepts = some (.transmitByte v)) ∧ t.line = low ∨
      s.busy = true ∧ s.phase ≠ .stop ∧ s.tmr ≤ 1)

/-- R19, R34: only an accepted `CONFIGURE` clears `DIR`, and only reset sets it. -/
def Obligations.DirectionIsWrittenOnlyByConfigureAndReset : Prop :=
  ∀ s : State, ∃ t, step s = .next t ∧
    (t.dir ≠ s.dir → s.rst = true ∧ t.dir = true ∨ s.accepts = some .configure ∧ t.dir = false)

/-! ### The sequencer as an automaton -/

/-- R15, R82: out of `IDLE` only by the acceptance of a `TRANSMIT_BYTE`; out of any other phase only to
the next one, exactly when `TMR` runs out; nothing but reset does otherwise. -/
def Obligations.PhaseMovesInOrder : Prop :=
  ∀ s : State, ∃ t, step s = .next t ∧
    (s.rst = true → t.phase = .idle) ∧
    (s.rst = false → s.phase = .idle →
      (t.phase = .start ∧ ∃ v, s.accepts = some (.transmitByte v)) ∨
        t.phase = .idle ∧ ∀ v, s.accepts ≠ some (.transmitByte v)) ∧
    (s.rst = false → s.phase ≠ .idle → t.phase = if s.tmr ≤ 1 then s.phase.succ else s.phase)

/-- R82, R136: neither the next phase nor the time of a transition depends on data: two states that agree
on phase and timer, in which the same kind of command (or none) is accepted, agree on them a tick later. -/
def Obligations.TimingDoesNotDependOnData : Prop :=
  ∀ s s' : State, s'.cfg = s.cfg → s'.phase = s.phase → s'.tmr = s.tmr → s'.rst = s.rst →
    s'.accepts.map Instr.row = s.accepts.map Instr.row →
    (s'.after 1).phase = (s.after 1).phase ∧ (s'.after 1).tmr = (s.after 1).tmr

/-- R94, R17: `TMR` is loaded, cleared, kept, or taken down by one where it is more than 1: it never wraps,
and it stays within its `TMR_WIDTH` bits. -/
def Obligations.TimerNeverWraps : Prop :=
  ∀ s : State, ∃ t, step s = .next t ∧
    (t.tmr = 0 ∨ t.tmr = s.cfg.edgeTicks ∨ t.tmr = s.cfg.dataPeriod ∨ t.tmr = s.tmr ∨
      1 < s.tmr ∧ t.tmr + 1 = s.tmr) ∧
    t.cfg = s.cfg ∧ (s.timerFits → t.timerFits)

/-- R25, (a) to (e) as far as they speak of one state: every step keeps the invariant. -/
def Obligations.EveryStepKeepsTheInvariant : Prop :=
  ∀ s t : State, s.Inv → step s = .next t → t.Inv

/-- R25 holds of the reset state. -/
def Obligations.ResetStateMeetsTheInvariant : Prop := State.reset.Inv

/-- R25 (f), R66: from a state with the pin an input and with no reset, `DIR = 0` if and only if a
`CONFIGURE` has been accepted. -/
def Obligations.PinIsOutputExactlyAfterConfigure : Prop :=
  ∀ (s : State) n, s.dir = true → s.noReset n →
    ((s.after n).dir = false ↔ ∃ k, k < n ∧ (s.after k).accepts = some .configure)

/-- R25 (e): whenever the block is idle, the line is HIGH if a command has been accepted since the idle
state the run began in, and otherwise it still has the level it had there. -/
def Obligations.IdleLineIsHighAfterAnyCommand : Prop :=
  ∀ (s : State) n, s.phase = .idle → s.noReset n → (s.after n).phase = .idle →
    ((∃ k i, k < n ∧ (s.after k).accepts = some i) → (s.after n).line = high) ∧
      ((∀ k, k < n → (s.after k).accepts = none) → (s.after n).line = s.line)

/-! ### Outputs -/

/-- R22: `cmd_ready` and `busy`. `busy` is 1 for exactly `FRAME_TICKS` ticks from the tick after the
acceptance of a `TRANSMIT_BYTE`; `CONFIGURE` never sets it. -/
def Obligations.StatusOutputs : Prop :=
  (∀ s : State, (s.cmdReady = true ↔ s.phase = .idle ∧ s.rst = false) ∧ (s.busy = true ↔ s.phase ≠ .idle)) ∧
    (∀ (s : State) v, s.accepts = some (.transmitByte v) → s.noReset (s.cfg.frameTicks + 1) →
      ∀ n, n ≤ s.cfg.frameTicks + 1 → (s.busyAt n = true ↔ 1 ≤ n ∧ n ≤ s.cfg.frameTicks)) ∧
    (∀ s : State, s.accepts = some .configure → s.busyAt 1 = false) ∧
    (∀ s : State, s.busy = true → s.accepts = none) ∧ State.reset.busy = false

/-- R23, R24: the line outputs, the wire, and what a receiver reads from it: all functions of the state; an
undriven wire has no level of its own. -/
def Obligations.LineOutputsAndWire : Prop :=
  ∀ s : State, s.lineOut = s.line ∧ (s.lineOe = true ↔ s.dir = false) ∧ s.dirQ = s.dir ∧
    (s.dir = false → s.wire = .driven s.line ∧ s.levelRead = s.line) ∧
    (s.dir = true → s.wire = .z ∧ s.levelRead = Config.freeUndrivenLevel s.ticks)

/-! ### Arithmetic -/

/-- R91, R92: bit isolation and the logical shift by one place; eight shifts turn any value into 0. -/
def Obligations.ShiftAndMask : Prop :=
  ∀ v : Byte, (isolate v = 0x00#8 ∨ isolate v = 0x01#8) ∧ levelOf (isolate v) = v.getLsbD 0 ∧
    (∀ i, i < 8 → (isolate (v >>> i) = 0x01#8 ↔ v.getLsbD i = true) ∧
      (isolate (v >>> i) = 0x01#8 ↔ v &&& (1#8 <<< i) ≠ 0x00#8)) ∧
    (∀ i, i < 7 → (shiftRightOne v).getLsbD i = v.getLsbD (i + 1)) ∧ (shiftRightOne v).getLsbD 7 = false ∧
    (shiftRightOne^[8]) v = 0x00#8

/-- R97: the level of each slot, and the frame as the ten bits of `FrameWord`. -/
def Obligations.SlotLevels : Prop :=
  ∀ v : Byte, slotLevel v 0 = low ∧ (∀ k, 1 ≤ k → k ≤ 8 → slotLevel v k = v.getLsbD (k - 1)) ∧
    slotLevel v 9 = high ∧ ∀ k, k < 10 → slotLevel v k = (frameWord v).getLsbD k

/-- R15, R18: the phase codes, and `BITCNT` as a function of `PHASE`. -/
def Obligations.PhaseCodesAndLoopCounter : Prop :=
  Phase.idle.code = 0 ∧ Phase.start.code = 1 ∧ Phase.stop.code = 10 ∧
    (∀ i, i < 8 → (Phase.data i).code.toNat = 2 + i ∧ (Phase.data i).bitcnt = 8 - i) ∧
    Phase.start.bitcnt = 8 ∧ Phase.stop.bitcnt = 0 ∧ Phase.idle.bitcnt = 0

/-! ### The frame -/

/-- R77: the slot timeline of an accepted `TRANSMIT_BYTE`: in tick `first(k) + m` the phase is slot `k`'s,
`TMR = n - m`, and the line has the level of slot `k`. -/
def Obligations.SlotTimeline : Prop :=
  ∀ (s : State) v, s.accepts = some (.transmitByte v) → s.noReset (s.cfg.frameTicks + 1) →
    (∀ k, k < 10 → ∀ m, m < slotLength s.cfg.toParams k →
      (s.after (slotFirst s.cfg.toParams k + m)).phase = slotPhase k ∧
        (s.after (slotFirst s.cfg.toParams k + m)).tmr = slotLength s.cfg.toParams k - m ∧
        (s.after (slotFirst s.cfg.toParams k + m)).line = slotLevel v k ∧
        (s.after (slotFirst s.cfg.toParams k + m)).shreg = slotShreg v k ∧
        (s.after (slotFirst s.cfg.toParams k + m)).dir = s.dir) ∧
      slotFirst s.cfg.toParams 0 = 1 ∧ slotLast s.cfg.toParams 0 = s.cfg.edgeTicks ∧
      (∀ k, 1 ≤ k → k ≤ 9 → slotFirst s.cfg.toParams k = slotLast s.cfg.toParams (k - 1) + 1) ∧
      (∀ k, 1 ≤ k → k ≤ 8 →
        slotLast s.cfg.toParams k = s.cfg.edgeTicks + k * s.cfg.dataPeriod) ∧
      slotLast s.cfg.toParams 9 = s.cfg.frameTicks

/-- R98: the frame shape on the wire, for every value. -/
def Obligations.FrameShapeOnTheWire : Prop :=
  ∀ (s : State) v, s.accepts = some (.transmitByte v) → s.dir = false → s.noReset (s.cfg.frameTicks + 1) →
    (∀ k, k ≤ 9 → ∀ t, slotFirst s.cfg.toParams k ≤ t → t ≤ slotLast s.cfg.toParams k →
      s.wireAt t = .driven (slotLevel v k)) ∧
      s.wireAt (s.cfg.frameTicks + 1) = .driven high

/-- R101: each slot lasts exactly its ticks, for every value, with no jitter; under the calibration contract
all ten last the same; the frame lasts `FRAME_TICKS`. -/
def Obligations.SlotsLastExactly : Prop :=
  (∀ (s : State) v, s.accepts = some (.transmitByte v) → s.noReset (s.cfg.frameTicks + 1) →
      ∀ k, k < 10 → ∀ t, t ≤ s.cfg.frameTicks + 1 →
        ((s.after t).phase = slotPhase k ↔
          slotFirst s.cfg.toParams k ≤ t ∧ t ≤ slotLast s.cfg.toParams k)) ∧
    ∀ c : Config,
      (∀ k, k < 10 → slotLast c.toParams k + 1 - slotFirst c.toParams k = slotLength c.toParams k) ∧
      slotLength c.toParams 0 = c.edgeTicks ∧ slotLength c.toParams 9 = c.edgeTicks ∧
      (∀ k, 1 ≤ k → k ≤ 8 → slotLength c.toParams k = c.dataTicks + c.overheadTicks) ∧
      slotLast c.toParams 9 + 1 - slotFirst c.toParams 0 = c.frameTicks ∧
      (c.calibrated → ∀ k, k < 10 → slotLength c.toParams k = c.edgeTicks)

/-- R84: the state after a frame, whatever the value was; apart from `SHREG` it is the state after
`CONFIGURE`; and frames of the same value from two states with the same `DIR` have the same waveform. -/
def Obligations.StateAfterAFrame : Prop :=
  ∀ (s : State) v, s.accepts = some (.transmitByte v) → s.noReset (s.cfg.frameTicks + 1) →
    (s.after (s.cfg.frameTicks + 1)).owned =
        { phase := .idle, tmr := 0, shreg := 0x00#8, dir := s.dir, line := high } ∧
      s.busyAt (s.cfg.frameTicks + 1) = false ∧
      ((s.after (s.cfg.frameTicks + 1)).rst = false → (s.after (s.cfg.frameTicks + 1)).cmdReady = true) ∧
      (∀ c : State, c.accepts = some .configure → c.tmr = 0 → s.dir = false →
        (s.after (s.cfg.frameTicks + 1)).phase = (c.after 1).phase ∧
          (s.after (s.cfg.frameTicks + 1)).tmr = (c.after 1).tmr ∧
          (s.after (s.cfg.frameTicks + 1)).dir = (c.after 1).dir ∧
          (s.after (s.cfg.frameTicks + 1)).line = (c.after 1).line) ∧
      ∀ s' : State, s'.cfg = s.cfg → s'.dir = s.dir → s'.accepts = some (.transmitByte v) →
        s'.noReset (s.cfg.frameTicks + 1) →
        ∀ t, 1 ≤ t → t ≤ s.cfg.frameTicks + 1 → s'.wireAt t = s.wireAt t

/-- R102: the frame begins with a falling edge, and its first LOW run lasts `E + DP * z` ticks, `z` the
number of 0 bits at the least-significant end. -/
def Obligations.FirstLowRunCountsTheLowZeros : Prop :=
  ∀ (s : State) v, s.accepts = some (.transmitByte v) → s.wire = .driven high →
    s.noReset (s.cfg.frameTicks + 1) →
    s.fallingEdge 1 ∧ s.levelRun low 1 (s.cfg.edgeTicks + s.cfg.dataPeriod * lowZeros v) ∧
      lowZeros v ≤ 8 ∧ (∀ i, i < lowZeros v → v.getLsbD i = false) ∧
      (lowZeros v < 8 → v.getLsbD (lowZeros v) = true)

/-- R133, R79 (c): a `TRANSMIT_BYTE` accepted while the pin is an input: the sequencer runs the whole frame
on the latch, the wire stays `Z`, and nothing is reported. -/
def Obligations.TransmitBeforeConfigureIsLost : Prop :=
  ∀ (s : State) v, s.accepts = some (.transmitByte v) → s.dir = true → s.noReset (s.cfg.frameTicks + 1) →
    (∀ t, t ≤ s.cfg.frameTicks + 1 → s.wireAt t = .z ∧ (s.busyAt t = true ↔ 1 ≤ t ∧ t ≤ s.cfg.frameTicks)) ∧
      (∀ k, k < 10 → ∀ t, slotFirst s.cfg.toParams k ≤ t → t ≤ slotLast s.cfg.toParams k →
        (s.after t).line = slotLevel v k) ∧
      (s.after (s.cfg.frameTicks + 1)).line = high ∧ (s.after (s.cfg.frameTicks + 1)).dir = true ∧
      ((s.after (s.cfg.frameTicks + 1)).accepts = some .configure →
        s.wireAt (s.cfg.frameTicks + 2) = .driven high)

/-! ### Between frames -/

/-- R81: back-to-back calls. Nothing is accepted in the `FRAME_TICKS` ticks after an acceptance, anything
can be in the next; a `TRANSMIT_BYTE` accepted then begins its Start slot one tick later, after `E + 1`
ticks of HIGH. -/
def Obligations.BackToBackCalls : Prop :=
  ∀ (s : State) v, s.accepts = some (.transmitByte v) → s.noReset (s.cfg.frameTicks + 2) →
    (∀ n, 1 ≤ n → n ≤ s.cfg.frameTicks → (s.after n).accepts = none ∧ (s.after n).cmdReady = false) ∧
      (s.after s.cfg.pitchMin).cmdReady = true ∧
      (∀ w, (s.after s.cfg.pitchMin).command = some w → (s.after s.cfg.pitchMin).accepts = some (decode w)) ∧
      ∀ u, (s.after s.cfg.pitchMin).accepts = some (.transmitByte u) → s.dir = false →
        (s.after (s.cfg.frameTicks + 2)).phase = .start ∧ s.wireAt (s.cfg.frameTicks + 2) = .driven low ∧
          ∀ t, slotFirst s.cfg.toParams 9 ≤ t → t < slotFirst s.cfg.toParams 9 + (s.cfg.edgeTicks + 1) →
            s.wireAt t = .driven high

/-- R99: the idle invariant. (a) Between two frames the wire is HIGH from the Stop slot to the tick in
which the second is accepted, at least `E + 1` ticks, for every host. (b) Between a `CONFIGURE` and the
first frame after it the wire is HIGH for as many ticks as the host waits. -/
def Obligations.IdleBetweenFramesAndBeforeTheFirst : Prop :=
  (∀ (s : State) v u n, s.accepts = some (.transmitByte v) → s.dir = false → 0 < n → s.noReset n →
      (s.after n).accepts = some (.transmitByte u) → (∀ t, 0 < t → t < n → s.noFrameBegins t) →
      s.cfg.frameTicks + 1 ≤ n ∧
        ∀ t, slotFirst s.cfg.toParams 9 ≤ t → t ≤ n → s.wireAt t = .driven high) ∧
    ∀ (s : State) v n, s.accepts = some .configure → 0 < n → s.noReset n →
      (s.after n).accepts = some (.transmitByte v) → (∀ t, t < n → s.noFrameBegins t) →
      ∀ t, 1 ≤ t → t ≤ n → s.wireAt t = .driven high

/-- R100: from the first tick after a frame, and from the first tick after a `CONFIGURE`, the wire is HIGH
up to the tick in which the next `TRANSMIT_BYTE` is accepted; and the block drives LOW only in the Start
slot and the data slots. -/
def Obligations.LineRestsAtHigh : Prop :=
  (∀ (s : State) v n, s.accepts = some (.transmitByte v) → s.dir = false → s.noReset n →
      (∀ t, 0 < t → t < n → s.noFrameBegins t) →
      ∀ t, s.cfg.frameTicks + 1 ≤ t → t ≤ n → s.wireAt t = .driven high) ∧
    (∀ (s : State) n, s.accepts = some .configure → s.noReset n → (∀ t, t < n → s.noFrameBegins t) →
      ∀ t, 1 ≤ t → t ≤ n → s.wireAt t = .driven high) ∧
    ∀ s : State, s.Inv → s.wire = .driven low → s.phase = .start ∨ ∃ i, s.inData i

/-! ### The receiver -/

/-- R105: the round trip. The reference receiver recovers every value from the frame's falling edge. -/
def Obligations.ReferenceReceiverRecoversTheByte : Prop :=
  ∀ (s : State) v, s.accepts = some (.transmitByte v) → s.dir = false → s.wire = .driven high →
    s.noReset (s.cfg.frameTicks + 1) →
    s.fallingEdge 1 ∧ frameWellFormed s.cfg.toParams s.levelAt 1 ∧ receive s.cfg.toParams s.levelAt 1 = v.toNat

/-- R107: two frames in a row (the source's 65 and 66, and any other two values). -/
def Obligations.ConsecutiveFramesAreBothReceived : Prop :=
  ∀ (s : State) v u, s.accepts = some (.transmitByte v) →
    (s.after (s.cfg.frameTicks + 1)).accepts = some (.transmitByte u) → s.dir = false →
    s.noReset (2 * s.cfg.frameTicks + 2) →
    (∀ t, slotFirst s.cfg.toParams 9 ≤ t → t ≤ s.cfg.frameTicks + 1 → s.wireAt t = .driven high) ∧
      (∀ t, s.cfg.frameTicks + 2 ≤ t → t < s.cfg.frameTicks + 2 + s.cfg.edgeTicks →
        s.wireAt t = .driven low) ∧
      s.cfg.frameTicks + 1 + 1 - slotFirst s.cfg.toParams 9 = s.cfg.edgeTicks + 1 ∧
      receive s.cfg.toParams s.levelAt 1 = v.toNat ∧
      receive s.cfg.toParams s.levelAt (s.cfg.frameTicks + 2) = u.toNat

/-- R106: a receiver with a clock of its own, of any positive real bit period `R`. Inside the window it reads
every slot of a frame at its level, and the byte; the window of slot `k` is exactly that its sampling tick is
one of the slot's; at `E = DP = 104` it is `1872 / 19 <= R < 2080 / 19`, and at `E = R = 104` it is
`97.5 < DP <= 110.5`. A period that is a fraction of ticks reads the same by whole-number arithmetic. The
receiver's model is the spec's own general knowledge G4 (PRESUMED, log entry 17). -/
def Obligations.ReceiverClockWindow : Prop :=
  (∀ (s : State) v (r : BitPeriod), s.accepts = some (.transmitByte v) → s.dir = false →
      s.noReset (s.cfg.frameTicks + 1) → r.readsFrame s.cfg.toParams →
      (∀ k t, k < 10 → r.samplesIn 1 k t → s.levelAt t = slotLevel v k) ∧
        ∀ n, r.reads s.levelAt 1 n ↔ n = v.toNat) ∧
    (∀ (p : Params) (r : BitPeriod) k t, r.samplesIn 1 k t →
      (r.readsSlot p k ↔ slotFirst p k ≤ t ∧ t ≤ slotLast p k)) ∧
    (∀ (p : Params) (r : BitPeriod), p.edgeTicks = 104 → p.dataPeriod = 104 →
      (r.readsFrame p ↔ 1872 / 19 ≤ r.ticks ∧ r.ticks < 2080 / 19)) ∧
    (∀ (p : Params) (r : BitPeriod), p.edgeTicks = 104 → r.ticks = 104 →
      (r.readsFrame p ↔ (97.5 : ℝ) < p.dataPeriod ∧ (p.dataPeriod : ℝ) ≤ 110.5)) ∧
    ∀ (q : PeriodFraction) (r : BitPeriod), q.is r →
      (∀ p k, q.readsSlot p k ↔ r.readsSlot p k) ∧ (∀ f k, r.samplesIn f k (q.sampleTick f k)) ∧
        ∀ levels f n, r.reads levels f n ↔ n = q.receive levels f

/-! ### The host -/

/-- R58: a free host's command is accepted in the very tick it is presented, and the program moves on to
the next item; while the block is busy or held in reset the sequential host presents nothing and keeps its
place. -/
def Obligations.SequentialHostIsServedAtOnce : Prop :=
  (∀ (s : State) i rest, s.cmdPort = [] → s.rst = false → s.phase = .idle →
      s.caller.program = .command i :: rest →
      s.command = some (encode i) ∧ s.accepts = some i ∧ step s = exec i s ∧
        (s.after 1).caller.program = rest) ∧
    ∀ s : State, s.cmdPort = [] → s.caller.eager = false → (s.rst = true ∨ s.busy = true) →
      s.command = none ∧ settle (s.after 1).caller.program = settle s.caller.program ∧
        (s.after 1).caller.spent = s.caller.spent

/-- R58, R54: the block treats the eager host and the sequential one alike, for every program whose samples
are stated with it (R60), in particular for every program that draws none. Where R58 is silent the statement
rests on the model's choices: that the eager host spends a delay only in ticks in which it is free, and when
it reads a sample (DESIGN CHOICE, log entry 9), and that after a reset both runs draw the same `LINE` (DESIGN
CHOICE, log entry 4). -/
def Obligations.EagerHostMakesNoDifference : Prop :=
  ∀ (s : State) (program : List HostItem), program.count .transmitSample ≤ s.caller.samples.length →
    s.cmdPort = [] →
    ∀ n, ((s.withProgram program true).after n).owned = ((s.withProgram program false).after n).owned ∧
      ((s.withProgram program true).after n).portdir = ((s.withProgram program false).after n).portdir ∧
      ((s.withProgram program true).after n).portlat = ((s.withProgram program false).after n).portlat

/-- R60, R95: `transmit_sample` sends the sample read in the tick it begins: the one stated with the
program, or a free value; reading it has no effect on the transmitter. -/
def Obligations.SampleIsTransmitted : Prop :=
  ∀ (s : State) rest, s.cmdPort = [] → s.rst = false → s.phase = .idle →
    s.caller.program = .transmitSample :: rest →
    s.accepts = some (.transmitByte s.readSample) ∧ step s = exec (.transmitByte s.readSample) s ∧
      (s.after 1).caller.program = rest ∧
      (∀ v more, s.caller.samples = v :: more →
        s.readSample = v ∧ (s.after 1).caller.samples = more) ∧
      (s.caller.samples = [] → s.readSample = Config.freeSample s.ticks)

/-- R62, R137: the timeline of the sequential host: item `k` begins in tick `a[k]`, where a command item is
accepted, and the run is over at `a[N]` and not before. A `delay_ms n` counts as `1000 * n` ticks, a
millisecond being 1000 microseconds by the spec's own general knowledge G2 (PRESUMED, log entry 16). -/
def Obligations.HostTimeline : Prop :=
  ∀ (s : State) (program : List HostItem) e, s.phase = .idle → s.cmdPort = [] →
    (timeline s.cfg.toParams 0 program).getLast? = some e → s.noReset e →
    (∀ (k : Nat) i a, program[k]? = some (HostItem.command i) → (timeline s.cfg.toParams 0 program)[k]? = some a →
      ((s.withProgram program false).after a).accepts = some i) ∧
      (∀ (k : Nat) a, program[k]? = some HostItem.transmitSample → (timeline s.cfg.toParams 0 program)[k]? = some a →
        ∃ v, ((s.withProgram program false).after a).accepts = some (.transmitByte v)) ∧
      ((s.withProgram program false).after e).runOver = true ∧
      ∀ t, t < e → ((s.withProgram program false).after t).runOver = false

/-- R137: once a run is over the block never changes again, unless a reset or a new command arrives. -/
def Obligations.FinishedRunStaysFinished : Prop :=
  ∀ (s : State) n, s.runOver = true → s.noReset n →
    (s.after n).owned = s.owned ∧ (s.after n).runOver = true ∧ s.wireAt n = s.wire

/-- R127, R128: the start-up program `configure`, `delay_us d`, `transmit_byte v` from any state the reset
action leaves: undriven until `CONFIGURE`, HIGH from the next tick for `d + 1` ticks, at least a bit
period if `d + 1 >= E`; then the frame, which the reference receiver reads as `v`. -/
def Obligations.StartUpProgram : Prop :=
  ∀ (s : State) (d : Nat) (v : Byte), s.phase = .idle → s.dir = true → s.cmdPort = [] →
    s.noReset (d + s.cfg.frameTicks + 3) →
    let run := s.withProgram
      [HostItem.command .configure, HostItem.delayUs d, HostItem.command (.transmitByte v)] false
    run.wireAt 0 = .z ∧ (∀ t, 1 ≤ t → t ≤ d + 1 → run.wireAt t = .driven high) ∧
      (run.after (d + 1)).accepts = some (.transmitByte v) ∧
      (s.cfg.edgeTicks ≤ d + 1 → ∀ t, d + 2 - s.cfg.edgeTicks ≤ t → t ≤ d + 1 → run.wireAt t = .driven high) ∧
      run.fallingEdge (d + 2) ∧ receive s.cfg.toParams run.levelAt (d + 2) = v.toNat ∧
      (run.after (d + s.cfg.frameTicks + 2)).runOver = true
end

