-- ==== Sys2Proof/Laws/Config.lean ====
section
/-! SUPPORT. What a legal configuration gives (00_scope.md R6, R7), and the timer's arithmetic within it. -/

namespace Sys2Proof

theorem Config.legal_facts (c : Config) :
    1 ≤ c.edgeTicks ∧ 1 ≤ c.dataTicks ∧ c.edgeTicks ≤ c.timerMax ∧ c.dataPeriod ≤ c.timerMax ∧
      c.pin < c.portWidth := by
  have h := c.isLegal
  simp only [Params.legal, Params.edgePositive, Params.dataPositive, Params.edgeFits, Params.dataFits,
    Params.pinInPort, Bool.and_eq_true, decide_eq_true_eq] at h
  obtain ⟨⟨⟨⟨h1, h2⟩, h3⟩, h4⟩, h5⟩ := h
  exact ⟨h1, h2, h3, h4, h5⟩

theorem Config.edge_pos (c : Config) : 1 ≤ c.edgeTicks := c.legal_facts.1
theorem Config.edge_le (c : Config) : c.edgeTicks ≤ c.timerMax := c.legal_facts.2.2.1
theorem Config.period_le (c : Config) : c.dataPeriod ≤ c.timerMax := c.legal_facts.2.2.2.1
theorem Config.pin_lt (c : Config) : c.pin < c.portWidth := c.legal_facts.2.2.2.2

theorem Config.period_pos (c : Config) : 1 ≤ c.dataPeriod := by
  have := c.legal_facts.2.1
  unfold Params.dataPeriod
  omega

namespace Machine

/-- A count up to `timerMax` is a number of `TMR_WIDTH` bits. -/
theorem le_timerMax_iff (p : Params) (n : Nat) : n ≤ p.timerMax ↔ n < 2 ^ p.tmrWidth := by
  have := Nat.two_pow_pos p.tmrWidth
  unfold Params.timerMax
  omega

/-- A count that fits `TMR` is held as it is. -/
theorem timerOf_of_le {c : Config} {n : Nat} (h : n ≤ c.timerMax) : timerOf c n = n :=
  Nat.mod_eq_of_lt ((le_timerMax_iff _ _).mp h)

/-- Whatever is loaded fits `TMR_WIDTH` bits. -/
theorem timerOf_lt (c : Config) (n : Nat) : timerOf c n < 2 ^ c.tmrWidth := Nat.mod_lt _ (Nat.two_pow_pos _)

@[simp] theorem timerOf_edge (c : Config) : timerOf c c.edgeTicks = c.edgeTicks := timerOf_of_le c.edge_le

@[simp] theorem timerOf_period (c : Config) : timerOf c c.dataPeriod = c.dataPeriod := timerOf_of_le c.period_le

/-- The level of the isolated bit is bit 0 (R91). -/
@[simp] theorem levelOf_isolate (v : Byte) : levelOf (isolate v) = v.getLsbD 0 := by
  revert v; decide

/-- The bit that a shift brings to place 0 is bit 1 (R72). -/
@[simp] theorem shiftRightOne_first (v : Byte) : (shiftRightOne v)[0] = v[1] := by
  revert v; decide

/-- Bit `i` after the shift is bit `i + 1` before it (R92). -/
theorem shiftRightOne_bit (v : Byte) (i : Nat) : (shiftRightOne v).getLsbD i = v.getLsbD (i + 1) := by
  simp [shiftRightOne, Nat.add_comm]

/-- Two shifts are one shift by the sum (R92). -/
theorem shiftRightOne_shift (v : Byte) (i : Nat) : shiftRightOne (v >>> i) = v >>> (i + 1) := by
  rw [shiftRightOne, BitVec.shiftRight_add]

/-- Eight shifts turn any value into 0 (R92). -/
theorem shift_eight (v : Byte) : v >>> 8 = 0x00#8 := by
  revert v; decide

end Machine

end Sys2Proof
end

