-- ==== Sys2Proof/Laws/Decode.lean ====
section
/-! SUPPORT. The opcode table: its rows do not overlap and cover every word (30_encoding.md R50). -/

namespace Sys2Proof

theorem opcodeTable_disjoint :
    opcodeTable.Pairwise fun a b => ∀ w : Command, ¬(a.covers w = true ∧ b.covers w = true) := by decide

theorem opcodeTable_covers (w : Command) : ∃ r ∈ opcodeTable, r.covers w = true := by
  revert w; decide

/-- The two fields of a `TRANSMIT_BYTE` word. -/
theorem encode_transmitByte_fields (v : Byte) :
    opField (encode (.transmitByte v)) = true ∧ valueField (encode (.transmitByte v)) = v := by
  revert v; decide

end Sys2Proof
end

