-- ==== Sys2Proof/Laws/State.lean ====
section
/-! SUPPORT. One lemma per field per update: the micro-operations on the owned fields, the end of a tick, a presented
command, a loaded program. -/

namespace Sys2Proof.Machine

/-! ### The fields read off a state -/

@[simp] theorem State.owned_phase (s : State) : s.owned.phase = s.phase := rfl
@[simp] theorem State.owned_tmr (s : State) : s.owned.tmr = s.tmr := rfl
@[simp] theorem State.owned_shreg (s : State) : s.owned.shreg = s.shreg := rfl
@[simp] theorem State.owned_dir (s : State) : s.owned.dir = s.dir := rfl
@[simp] theorem State.owned_line (s : State) : s.owned.line = s.line := rfl

/-! ### The micro-operations -/

@[simp] theorem Owned.setLineLevel_phase (o : Owned) (l : Level) : (o.setLineLevel l).phase = o.phase := rfl
@[simp] theorem Owned.setLineLevel_tmr (o : Owned) (l : Level) : (o.setLineLevel l).tmr = o.tmr := rfl
@[simp] theorem Owned.setLineLevel_shreg (o : Owned) (l : Level) : (o.setLineLevel l).shreg = o.shreg := rfl
@[simp] theorem Owned.setLineLevel_dir (o : Owned) (l : Level) : (o.setLineLevel l).dir = o.dir := rfl
@[simp] theorem Owned.setLineLevel_line (o : Owned) (l : Level) : (o.setLineLevel l).line = l := rfl

@[simp] theorem Owned.configureLineAsOutput_phase (o : Owned) : o.configureLineAsOutput.phase = o.phase := rfl
@[simp] theorem Owned.configureLineAsOutput_tmr (o : Owned) : o.configureLineAsOutput.tmr = o.tmr := rfl
@[simp] theorem Owned.configureLineAsOutput_shreg (o : Owned) : o.configureLineAsOutput.shreg = o.shreg := rfl
@[simp] theorem Owned.configureLineAsOutput_dir (o : Owned) : o.configureLineAsOutput.dir = false := rfl
@[simp] theorem Owned.configureLineAsOutput_line (o : Owned) : o.configureLineAsOutput.line = o.line := rfl

@[simp] theorem Owned.delayMicroseconds_phase (c : Config) (o : Owned) (n : Nat) :
    (o.delayMicroseconds c n).phase = o.phase := rfl
@[simp] theorem Owned.delayMicroseconds_tmr (c : Config) (o : Owned) (n : Nat) :
    (o.delayMicroseconds c n).tmr = timerOf c n := rfl
@[simp] theorem Owned.delayMicroseconds_shreg (c : Config) (o : Owned) (n : Nat) :
    (o.delayMicroseconds c n).shreg = o.shreg := rfl
@[simp] theorem Owned.delayMicroseconds_dir (c : Config) (o : Owned) (n : Nat) :
    (o.delayMicroseconds c n).dir = o.dir := rfl
@[simp] theorem Owned.delayMicroseconds_line (c : Config) (o : Owned) (n : Nat) :
    (o.delayMicroseconds c n).line = o.line := rfl

@[simp] theorem Owned.shift_phase (o : Owned) : o.shift.phase = o.phase := rfl
@[simp] theorem Owned.shift_tmr (o : Owned) : o.shift.tmr = o.tmr := rfl
@[simp] theorem Owned.shift_shreg (o : Owned) : o.shift.shreg = shiftRightOne o.shreg := rfl
@[simp] theorem Owned.shift_dir (o : Owned) : o.shift.dir = o.dir := rfl
@[simp] theorem Owned.shift_line (o : Owned) : o.shift.line = o.line := rfl

@[simp] theorem Owned.goto_phase (o : Owned) (p : Phase) : (o.goto p).phase = p := rfl
@[simp] theorem Owned.goto_tmr (o : Owned) (p : Phase) : (o.goto p).tmr = o.tmr := rfl
@[simp] theorem Owned.goto_shreg (o : Owned) (p : Phase) : (o.goto p).shreg = o.shreg := rfl
@[simp] theorem Owned.goto_dir (o : Owned) (p : Phase) : (o.goto p).dir = o.dir := rfl
@[simp] theorem Owned.goto_line (o : Owned) (p : Phase) : (o.goto p).line = o.line := rfl

@[simp] theorem Owned.hold_phase (o : Owned) : o.hold.phase = o.phase := rfl
@[simp] theorem Owned.hold_tmr (o : Owned) : o.hold.tmr = timerMinusOne o.tmr := rfl
@[simp] theorem Owned.hold_shreg (o : Owned) : o.hold.shreg = o.shreg := rfl
@[simp] theorem Owned.hold_dir (o : Owned) : o.hold.dir = o.dir := rfl
@[simp] theorem Owned.hold_line (o : Owned) : o.hold.line = o.line := rfl

@[simp] theorem Owned.endStop_phase (o : Owned) : o.endStop.phase = .idle := rfl
@[simp] theorem Owned.endStop_tmr (o : Owned) : o.endStop.tmr = 0 := rfl
@[simp] theorem Owned.endStop_shreg (o : Owned) : o.endStop.shreg = o.shreg := rfl
@[simp] theorem Owned.endStop_dir (o : Owned) : o.endStop.dir = o.dir := rfl
@[simp] theorem Owned.endStop_line (o : Owned) : o.endStop.line = o.line := rfl

/-! ### The operations -/

@[simp] theorem acceptConfigure_phase (o : Owned) : (acceptConfigure o).phase = o.phase := rfl
@[simp] theorem acceptConfigure_tmr (o : Owned) : (acceptConfigure o).tmr = o.tmr := rfl
@[simp] theorem acceptConfigure_shreg (o : Owned) : (acceptConfigure o).shreg = o.shreg := rfl
@[simp] theorem acceptConfigure_dir (o : Owned) : (acceptConfigure o).dir = false := rfl
@[simp] theorem acceptConfigure_line (o : Owned) : (acceptConfigure o).line = high := rfl

@[simp] theorem acceptTransmitByte_phase (c : Config) (v : Byte) (o : Owned) :
    (acceptTransmitByte c v o).phase = .start := rfl
@[simp] theorem acceptTransmitByte_tmr (c : Config) (v : Byte) (o : Owned) :
    (acceptTransmitByte c v o).tmr = c.edgeTicks := timerOf_edge c
@[simp] theorem acceptTransmitByte_shreg (c : Config) (v : Byte) (o : Owned) :
    (acceptTransmitByte c v o).shreg = v := rfl
@[simp] theorem acceptTransmitByte_dir (c : Config) (v : Byte) (o : Owned) :
    (acceptTransmitByte c v o).dir = o.dir := rfl
@[simp] theorem acceptTransmitByte_line (c : Config) (v : Byte) (o : Owned) :
    (acceptTransmitByte c v o).line = low := rfl

/-! ### The end of a tick -/

@[simp] theorem State.commit_cfg (s : State) (o : Owned) : (s.commit o).cfg = s.cfg := rfl
@[simp] theorem State.commit_phase (s : State) (o : Owned) : (s.commit o).phase = o.phase := rfl
@[simp] theorem State.commit_tmr (s : State) (o : Owned) : (s.commit o).tmr = o.tmr := rfl
@[simp] theorem State.commit_shreg (s : State) (o : Owned) : (s.commit o).shreg = o.shreg := rfl
@[simp] theorem State.commit_portdir (s : State) (o : Owned) :
    (s.commit o).portdir = nextPort s.cfg o.dir s.envDir := rfl
@[simp] theorem State.commit_portlat (s : State) (o : Owned) :
    (s.commit o).portlat = nextPort s.cfg o.line s.envLat := rfl
@[simp] theorem State.commit_ticks (s : State) (o : Owned) : (s.commit o).ticks = s.ticks + 1 := rfl
@[simp] theorem State.commit_rstPin (s : State) (o : Owned) : (s.commit o).rstPin = s.rstPin.tail := rfl
@[simp] theorem State.commit_cmdPort (s : State) (o : Owned) : (s.commit o).cmdPort = s.cmdPort.tail := rfl
@[simp] theorem State.commit_env (s : State) (o : Owned) : (s.commit o).env = s.env.tail := rfl
@[simp] theorem State.commit_envTail (s : State) (o : Owned) : (s.commit o).envTail = s.envTail := rfl
@[simp] theorem State.commit_caller (s : State) (o : Owned) : (s.commit o).caller = s.callerNext := rfl

/-! ### A presented command -/

@[simp] theorem State.present_cfg (s : State) (w : Command) : (s.present w).cfg = s.cfg := rfl
@[simp] theorem State.present_phase (s : State) (w : Command) : (s.present w).phase = s.phase := rfl
@[simp] theorem State.present_tmr (s : State) (w : Command) : (s.present w).tmr = s.tmr := rfl
@[simp] theorem State.present_shreg (s : State) (w : Command) : (s.present w).shreg = s.shreg := rfl
@[simp] theorem State.present_portdir (s : State) (w : Command) : (s.present w).portdir = s.portdir := rfl
@[simp] theorem State.present_portlat (s : State) (w : Command) : (s.present w).portlat = s.portlat := rfl
@[simp] theorem State.present_ticks (s : State) (w : Command) : (s.present w).ticks = s.ticks := rfl
@[simp] theorem State.present_env (s : State) (w : Command) : (s.present w).env = s.env := rfl
@[simp] theorem State.present_envTail (s : State) (w : Command) : (s.present w).envTail = s.envTail := rfl
@[simp] theorem State.present_caller (s : State) (w : Command) : (s.present w).caller = s.caller := rfl
@[simp] theorem State.present_owned (s : State) (w : Command) : (s.present w).owned = s.owned := rfl
@[simp] theorem State.present_command (s : State) (w : Command) : (s.present w).command = some w := rfl

@[simp] theorem State.present_rst (s : State) (w : Command) : (s.present w).rst = false := by
  cases h : s.rstPin <;> simp [State.rst, State.present, rstLow, h]

/-! ### A loaded program -/

@[simp] theorem State.withProgram_owned (s : State) (p : List HostItem) (e : Bool) :
    (s.withProgram p e).owned = s.owned := rfl
@[simp] theorem State.withProgram_cfg (s : State) (p : List HostItem) (e : Bool) :
    (s.withProgram p e).cfg = s.cfg := rfl
@[simp] theorem State.withProgram_rstPin (s : State) (p : List HostItem) (e : Bool) :
    (s.withProgram p e).rstPin = s.rstPin := rfl
@[simp] theorem State.withProgram_cmdPort (s : State) (p : List HostItem) (e : Bool) :
    (s.withProgram p e).cmdPort = s.cmdPort := rfl
@[simp] theorem State.withProgram_program (s : State) (p : List HostItem) (e : Bool) :
    (s.withProgram p e).caller.program = p := rfl
@[simp] theorem State.withProgram_spent (s : State) (p : List HostItem) (e : Bool) :
    (s.withProgram p e).caller.spent = 0 := rfl
@[simp] theorem State.withProgram_eager (s : State) (p : List HostItem) (e : Bool) :
    (s.withProgram p e).caller.eager = e := rfl

end Sys2Proof.Machine
end

