-- ==== Sys2Proof/Laws/Ports.lean ====
section
/-! SUPPORT. What the end of a tick does to the two port registers (20_memory.md R35): one lemma per kind of bit. -/

namespace Sys2Proof.Machine

@[simp] theorem nextPort_length (c : Config) (own : Level) (env : Nat → Level) :
    (nextPort c own env).length = c.portWidth := by simp [nextPort]

theorem nextPort_bit (c : Config) (own : Level) (env : Nat → Level) {j : Nat} (h : j < c.portWidth) :
    (nextPort c own env)[j]?.getD false = if j = c.pin then own else env j := by
  simp [nextPort, h]

@[simp] theorem nextPort_own (c : Config) (own : Level) (env : Nat → Level) :
    (nextPort c own env)[c.pin]?.getD false = own := by simp [nextPort_bit c own env c.pin_lt]

theorem nextPort_sibling (c : Config) (own : Level) (env : Nat → Level) {j : Nat} (h : j < c.portWidth)
    (hj : j ≠ c.pin) : (nextPort c own env)[j]?.getD false = env j := by simp [nextPort_bit c own env h, hj]

@[simp] theorem State.commit_dir (s : State) (o : Owned) : (s.commit o).dir = o.dir := by
  simp [State.dir, State.dirBit]

@[simp] theorem State.commit_line (s : State) (o : Owned) : (s.commit o).line = o.line := by
  simp [State.line, State.latBit]

/-- The block's fields after a tick are the ones it computed. -/
@[simp] theorem State.owned_commit (s : State) (o : Owned) : (s.commit o).owned = o := by
  simp [State.owned]

theorem State.commit_dirBit (s : State) (o : Owned) {j : Nat} (h : j < s.cfg.portWidth) (hj : j ≠ s.cfg.pin) :
    (s.commit o).dirBit j = s.envDir j := nextPort_sibling _ _ _ h hj

theorem State.commit_latBit (s : State) (o : Owned) {j : Nat} (h : j < s.cfg.portWidth) (hj : j ≠ s.cfg.pin) :
    (s.commit o).latBit j = s.envLat j := nextPort_sibling _ _ _ h hj

end Sys2Proof.Machine
end

