-- ==== Sys2Proof/Laws/Step.lean ====
section
/-! SUPPORT. What a step can do, said once: every step is a tick, and a tick has four cases in the order of R110. The
run from a state, composed. -/

namespace Sys2Proof.Machine

/-- What an idle block does with the command port in this tick (R53, R55). -/
def State.onIdle (s : State) : Owned → Owned :=
  match s.command.map decode with
  | some .configure => acceptConfigure
  | some (.transmitByte v) => acceptTransmitByte s.cfg v
  | none => fun o => o

theorem step_eq (s : State) : step s = .next (s.commit (s.nextOwned s.onIdle)) := by
  unfold step State.onIdle
  cases h : s.command with
  | none => rfl
  | some w => cases hd : decode w <;> simp [exec, execConfigure, execTransmitByte, State.tickWith, hd]

theorem exec_configure (s : State) : exec .configure s = .next (s.commit (s.nextOwned acceptConfigure)) := rfl

theorem exec_transmitByte (v : Byte) (s : State) :
    exec (.transmitByte v) s = .next (s.commit (s.nextOwned (acceptTransmitByte s.cfg v))) := rfl

theorem State.nextState_eq (s : State) : s.nextState = s.commit (s.nextOwned s.onIdle) := by
  simp [State.nextState, step_eq]

/-! ### The cases of a tick -/

theorem nextOwned_reset {s : State} (h : s.rst = true) (f : Owned → Owned) :
    s.nextOwned f = .afterReset (Config.freeLineAfterReset s.ticks) := by simp [State.nextOwned, h]

theorem nextOwned_idle {s : State} (h : s.rst = false) (hp : s.phase = .idle) (f : Owned → Owned) :
    s.nextOwned f = f s.owned := by simp [State.nextOwned, h, hp]

theorem nextOwned_busy {s : State} (h : s.rst = false) (hp : s.phase ≠ .idle) (f : Owned → Owned) :
    s.nextOwned f = s.owned.sequence s.cfg := by simp [State.nextOwned, h, hp]

theorem exec_busy {s : State} (h : s.rst = false) (hp : s.phase ≠ .idle) (i : Instr) :
    exec i s = .next (s.commit (s.owned.sequence s.cfg)) := by
  cases i <;> simp [exec_configure, exec_transmitByte, nextOwned_busy h hp]

theorem step_busy {s : State} (h : s.rst = false) (hp : s.phase ≠ .idle) :
    step s = .next (s.commit (s.owned.sequence s.cfg)) := by rw [step_eq, nextOwned_busy h hp]

/-! ### The run -/

@[simp] theorem State.after_zero (s : State) : s.after 0 = s := rfl

theorem State.after_succ (s : State) (n : Nat) : s.after (n + 1) = (s.after n).nextState := rfl

theorem State.after_add (s : State) (m n : Nat) : s.after (m + n) = (s.after m).after n := by
  induction n with
  | zero => rfl
  | succ n ih => rw [← Nat.add_assoc, State.after_succ, ih, State.after_succ]

@[simp] theorem State.nextState_cfg (s : State) : s.nextState.cfg = s.cfg := by simp [State.nextState_eq]

@[simp] theorem State.after_cfg (s : State) (n : Nat) : (s.after n).cfg = s.cfg := by
  induction n with
  | zero => rfl
  | succ n ih => simp [State.after_succ, ih]

theorem State.after_rstPin (s : State) (n : Nat) : (s.after n).rstPin = s.rstPin.drop n := by
  induction n with
  | zero => simp
  | succ n ih => simp [State.after_succ, State.nextState_eq, ih, List.tail_drop]

theorem State.after_rst (s : State) (n : Nat) : (s.after n).rst = s.rstPin[n]?.getD false := by
  simp [State.rst, State.after_rstPin, List.headD_eq_head?_getD]

theorem State.nextState_owned (s : State) : s.nextState.owned = s.nextOwned s.onIdle := by
  simp [State.nextState_eq]

end Sys2Proof.Machine
end

