-- ==== Sys2Proof/Laws/Sequencer.lean ====
section
/-! SUPPORT. The sequencer over many ticks: a slot held to its end (41_transmit_byte.md R70), and one slot after the
other, from which every statement about a frame follows. -/

namespace Sys2Proof.Machine

/-! ### One tick of the sequencer -/

theorem sequence_hold {o : Owned} (c : Config) (h : 1 < o.tmr) : o.sequence c = o.hold := by
  simp [Owned.sequence, h]

theorem sequence_end {o : Owned} (c : Config) (h : o.tmr ≤ 1) : o.sequence c = o.endSlot c := by
  simp [Owned.sequence, Nat.not_lt.mpr h]

theorem endSlot_phase {o : Owned} (c : Config) (h : o.phase ≠ .idle) : (o.endSlot c).phase = o.phase.succ := by
  rcases o with ⟨p, t, v, d, l⟩
  cases p <;> first | exact absurd rfl h | rfl

@[simp] theorem endSlot_dir (o : Owned) (c : Config) : (o.endSlot c).dir = o.dir := by
  rcases o with ⟨p, t, v, d, l⟩
  cases p <;> rfl

@[simp] theorem sequence_dir (o : Owned) (c : Config) : (o.sequence c).dir = o.dir := by
  unfold Owned.sequence
  split <;> simp

/-- The end of a data slot other than the last (R72), for every one of them. -/
theorem endSlot_data {o : Owned} (c : Config) {i : Nat} (hi : i ≤ 6) (h : o.phase = .data i) :
    o.endSlot c = { phase := .data (i + 1), tmr := c.dataPeriod, shreg := shiftRightOne o.shreg,
                    dir := o.dir, line := o.shreg.getLsbD 1 } := by
  rcases o with ⟨p, t, v, d, l⟩
  subst h
  obtain rfl | rfl | rfl | rfl | rfl | rfl | rfl : i = 0 ∨ i = 1 ∨ i = 2 ∨ i = 3 ∨ i = 4 ∨ i = 5 ∨ i = 6 := by
    omega
  all_goals simp [Owned.endSlot, Phase.data, Owned.endData, Owned.shift, Owned.setLineLevel, Owned.goto,
    Owned.delayMicroseconds]

/-- The end of the Start slot (R71). -/
theorem endSlot_start {o : Owned} (c : Config) (h : o.phase = .start) :
    o.endSlot c = { o with phase := .data0, tmr := c.dataPeriod, line := o.shreg.getLsbD 0 } := by
  simp [Owned.endSlot, h, Owned.endStart, Owned.setLineLevel, Owned.goto, Owned.delayMicroseconds]

/-- The end of the last data slot (R73). -/
theorem endSlot_data7 {o : Owned} (c : Config) (h : o.phase = .data7) :
    o.endSlot c = { phase := .stop, tmr := c.edgeTicks, shreg := shiftRightOne o.shreg,
                    dir := o.dir, line := high } := by
  simp [Owned.endSlot, h, Owned.endLastData, Owned.shift, Owned.setLineLevel, Owned.goto,
    Owned.delayMicroseconds]

/-- The end of the Stop slot (R74). -/
theorem endSlot_stop {o : Owned} (c : Config) (h : o.phase = .stop) :
    o.endSlot c = { o with phase := .idle, tmr := 0 } := by
  simp [Owned.endSlot, h, Owned.endStop, Owned.goto]

/-! ### No reset -/

theorem noReset_rst {s : State} {n k : Nat} (h : s.noReset n) (hk : k < n) : (s.after k).rst = false := by
  rw [State.after_rst]; exact h k hk

theorem noReset_mono {s : State} {m n : Nat} (h : s.noReset n) (hm : m ≤ n) : s.noReset m :=
  fun k hk => h k (Nat.lt_of_lt_of_le hk hm)

theorem noReset_after {s : State} {m n : Nat} (h : s.noReset (m + n)) : (s.after m).noReset n := by
  intro k hk
  have := h (m + k) (by omega)
  simpa [State.after_rstPin] using this

theorem noReset_zero {s : State} {n : Nat} (h : s.noReset n) (hn : 0 < n) : s.rst = false :=
  noReset_rst h hn

/-! ### A slot held to its end -/

theorem nextState_owned_busy {s : State} (h : s.rst = false) (hp : s.phase ≠ .idle) :
    s.nextState.owned = s.owned.sequence s.cfg := by rw [State.nextState_owned, nextOwned_busy h hp]

/-- While a slot is held only `TMR` moves (R70). -/
theorem owned_held {s : State} (hp : s.phase ≠ .idle) {m : Nat} (hm : m < s.tmr) (hr : s.noReset m) :
    (s.after m).owned = { s.owned with tmr := s.tmr - m } := by
  induction m with
  | zero => simp [State.owned]
  | succ m ih =>
    have ih := ih (by omega) (noReset_mono hr (by omega))
    have hph : (s.after m).phase = s.phase := congrArg Owned.phase ih
    have ht : (s.after m).owned.tmr = s.tmr - m := congrArg Owned.tmr ih
    rw [State.after_succ, nextState_owned_busy (noReset_rst hr (by omega)) (by rwa [hph]),
      sequence_hold _ (by omega), Owned.hold, ih]
    congr 1

/-- A slot loaded with `n >= 1` ends after exactly `n` ticks (R70). -/
theorem owned_slot_end {s : State} (hp : s.phase ≠ .idle) (ht : 1 ≤ s.tmr) (hr : s.noReset s.tmr) :
    (s.after s.tmr).owned = ({ s.owned with tmr := 1 } : Owned).endSlot s.cfg := by
  obtain ⟨n, hn⟩ : ∃ n, s.tmr = n + 1 := ⟨s.tmr - 1, by omega⟩
  have hh := owned_held hp (m := n) (by omega) (noReset_mono hr (by omega))
  have hph : (s.after n).phase = s.phase := congrArg Owned.phase hh
  rw [hn, State.after_succ, nextState_owned_busy (noReset_rst hr (by omega)) (by rwa [hph]), hh, State.after_cfg,
    hn, Nat.add_sub_cancel_left]
  exact sequence_end _ (Nat.le_refl 1)

/-! ### Slot after slot -/

/-- The owned fields in tick `m` of slot `k` of a frame of `v` (R77). -/
def slotOwned (c : Config) (v : Byte) (d : Level) (k m : Nat) : Owned :=
  { phase := slotPhase k, tmr := slotLength c.toParams k - m, shreg := slotShreg v k, dir := d
    line := slotLevel v k }

theorem slotLength_pos (c : Config) (k : Nat) : 1 ≤ slotLength c.toParams k := by
  unfold slotLength; split
  · exact c.edge_pos
  · exact c.period_pos

theorem slotLength_le (c : Config) (k : Nat) : slotLength c.toParams k ≤ c.timerMax := by
  unfold slotLength; split
  · exact c.edge_le
  · exact c.period_le

theorem slotPhase_ne_idle (k : Nat) : slotPhase k ≠ .idle := by
  unfold slotPhase
  split
  · simp
  split
  · generalize k - 1 = i
    unfold Phase.data; split <;> simp
  · simp

theorem slotOffset_succ (p : Params) (k : Nat) (hk : k < 9) :
    slotOffset p (k + 1) = slotOffset p k + slotLength p k := by
  unfold slotOffset slotLength
  rcases k with _ | k
  · simp
  · rw [if_neg (by omega), if_neg (by omega), if_neg (by omega)]
    rw [show k + 1 + 1 - 1 = k + 1 by omega, show k + 1 - 1 = k by omega, Nat.add_mul]
    omega

theorem slot_last_stop (p : Params) : slotOffset p 9 + slotLength p 9 = p.frameTicks := by
  simp [slotOffset, slotLength, Params.frameTicks]; omega

/-- A slot other than the last gives way to the first tick of the next one. -/
theorem slotOwned_endSlot (c : Config) (v : Byte) (d : Level) {k : Nat} (hk : k < 9) :
    ({ slotOwned c v d k 0 with tmr := 1 } : Owned).endSlot c = slotOwned c v d (k + 1) 0 := by
  by_cases h0 : k = 0
  · subst h0
    rw [endSlot_start _ rfl]
    simp [slotOwned, slotPhase, Phase.data, slotLength, slotShreg, slotLevel]
  by_cases h8 : k = 8
  · subst h8
    rw [endSlot_data7 _ rfl]
    simp [slotOwned, slotPhase, slotLength, slotShreg, slotLevel, shiftRightOne_shift]
  · obtain ⟨i, rfl⟩ : ∃ i, k = i + 1 := ⟨k - 1, by omega⟩
    rw [endSlot_data (i := i) _ (by omega)
      (by simp [slotOwned, slotPhase]; omega)]
    have h1 : ¬(i + 1 + 1 = 9) := by omega
    have h2 : i + 1 + 1 ≤ 8 := by omega
    simp [slotOwned, slotPhase, slotLength, slotShreg, slotLevel, shiftRightOne_shift, h1, h2]

/-- From the first tick of slot `k`, every tick of the slot. -/
theorem owned_in_slot {s : State} {v : Byte} {d : Level} {k m : Nat} (h : s.owned = slotOwned s.cfg v d k 0)
    (hm : m < slotLength s.cfg.toParams k) (hr : s.noReset m) : (s.after m).owned = slotOwned s.cfg v d k m := by
  have hp : s.phase = slotPhase k := congrArg Owned.phase h
  have hn : s.tmr = slotLength s.cfg.toParams k := congrArg Owned.tmr h
  rw [owned_held (by rw [hp]; exact slotPhase_ne_idle k) (by omega) hr, h, hn]
  rfl

/-- From the first tick of a slot other than the last to the first tick of the next. -/
theorem owned_next_slot {s : State} {v : Byte} {d : Level} {k : Nat} (h : s.owned = slotOwned s.cfg v d k 0)
    (hk : k < 9) (hr : s.noReset (slotLength s.cfg.toParams k)) :
    (s.after (slotLength s.cfg.toParams k)).owned = slotOwned s.cfg v d (k + 1) 0 := by
  have hp : s.phase = slotPhase k := congrArg Owned.phase h
  have hn : s.tmr = slotLength s.cfg.toParams k := congrArg Owned.tmr h
  have := slotLength_pos s.cfg k
  rw [← hn, owned_slot_end (by rw [hp]; exact slotPhase_ne_idle k) (by omega) (by rw [hn]; exact hr), h]
  exact slotOwned_endSlot _ _ _ hk

/-- From the first tick of a frame, every tick of every slot. -/
theorem owned_in_frame {s : State} {v : Byte} {d : Level} (h : s.owned = slotOwned s.cfg v d 0 0) {k m : Nat}
    (hk : k ≤ 9) (hm : m < slotLength s.cfg.toParams k) (hr : s.noReset (slotOffset s.cfg.toParams k + m)) :
    (s.after (slotOffset s.cfg.toParams k + m)).owned = slotOwned s.cfg v d k m := by
  have first : ∀ k, k ≤ 9 → s.noReset (slotOffset s.cfg.toParams k) →
      (s.after (slotOffset s.cfg.toParams k)).owned = slotOwned s.cfg v d k 0 := by
    intro k
    induction k with
    | zero => intro _ _; simpa [slotOffset] using h
    | succ k ih =>
      intro hk hr
      rw [slotOffset_succ _ _ (by omega)] at hr ⊢
      have ih := ih (by omega) (noReset_mono hr (by omega))
      rw [State.after_add]
      have := owned_next_slot (s := s.after (slotOffset s.cfg.toParams k)) (v := v) (d := d) (k := k)
        (by rw [State.after_cfg]; exact ih) (by omega) (by rw [State.after_cfg]; exact noReset_after hr)
      rwa [State.after_cfg] at this
  rw [State.after_add]
  have := owned_in_slot (s := s.after (slotOffset s.cfg.toParams k)) (v := v) (d := d) (k := k) (m := m)
    (by rw [State.after_cfg]; exact first k hk (noReset_mono hr (by omega)))
    (by rw [State.after_cfg]; exact hm) (noReset_after hr)
  rwa [State.after_cfg] at this

/-- From the first tick of a frame to the tick after its last. -/
theorem owned_after_frame {s : State} {v : Byte} {d : Level} (h : s.owned = slotOwned s.cfg v d 0 0)
    (hr : s.noReset s.cfg.frameTicks) :
    (s.after s.cfg.frameTicks).owned =
      { phase := .idle, tmr := 0, shreg := 0x00#8, dir := d, line := high } := by
  have hl := slot_last_stop s.cfg.toParams
  have hpos := slotLength_pos s.cfg 9
  have hf := owned_in_frame h (k := 9) (m := 0) (by omega) (by omega) (noReset_mono hr (by omega))
  rw [Nat.add_zero] at hf
  rw [← hl] at hr ⊢
  rw [State.after_add]
  generalize hs : s.after (slotOffset s.cfg.toParams 9) = t at hf
  have hc : t.cfg = s.cfg := by rw [← hs, State.after_cfg]
  have hp : t.phase = slotPhase 9 := congrArg Owned.phase hf
  have hn : t.tmr = slotLength s.cfg.toParams 9 := congrArg Owned.tmr hf
  rw [← hn, owned_slot_end (by rw [hp]; exact slotPhase_ne_idle 9) (by omega)
    (by rw [hn, ← hs]; exact noReset_after hr), hf]
  rw [endSlot_stop _ rfl]
  simp [slotOwned, slotShreg, slotLevel, shift_eight]

/-! ### Acceptance -/

theorem accepts_some {s : State} {i : Instr} (h : s.accepts = some i) :
    s.rst = false ∧ s.phase = .idle ∧ s.command.map decode = some i := by
  unfold State.accepts at h
  split at h
  · rename_i hc
    simp only [State.cmdReady, Bool.and_eq_true, decide_eq_true_eq, Bool.not_eq_true'] at hc
    exact ⟨hc.2, hc.1, h⟩
  · cases h

theorem accepts_eq_of_ready {s : State} (hr : s.rst = false) (hp : s.phase = .idle) :
    s.accepts = s.command.map decode := by simp [State.accepts, State.cmdReady, hr, hp]

theorem accepts_busy {s : State} (hp : s.phase ≠ .idle) : s.accepts = none := by
  simp [State.accepts, State.cmdReady, hp]

theorem accepts_reset {s : State} (hr : s.rst = true) : s.accepts = none := by
  simp [State.accepts, State.cmdReady, hr]

theorem after_one (s : State) : s.after 1 = s.nextState := rfl

theorem owned_after_configure {s : State} (h : s.accepts = some .configure) :
    (s.after 1).owned = acceptConfigure s.owned := by
  obtain ⟨hr, hp, hc⟩ := accepts_some h
  rw [after_one, State.nextState_owned, nextOwned_idle hr hp]
  simp [State.onIdle, hc]

theorem owned_after_transmit {s : State} {v : Byte} (h : s.accepts = some (.transmitByte v)) :
    (s.after 1).owned = slotOwned s.cfg v s.dir 0 0 := by
  obtain ⟨hr, hp, hc⟩ := accepts_some h
  rw [after_one, State.nextState_owned, nextOwned_idle hr hp]
  simp [State.onIdle, hc, slotOwned, acceptTransmitByte, Owned.setLineLevel, Owned.goto,
    Owned.delayMicroseconds, slotPhase, slotLength, slotShreg, slotLevel]

/-- An idle tick in which nothing is accepted leaves the owned fields (R75). -/
theorem owned_after_idle {s : State} (hr : s.rst = false) (hp : s.phase = .idle) (h : s.accepts = none) :
    (s.after 1).owned = s.owned := by
  rw [after_one, State.nextState_owned, nextOwned_idle hr hp]
  rw [accepts_eq_of_ready hr hp] at h
  simp [State.onIdle, h]

/-- Every tick of the frame of an accepted `TRANSMIT_BYTE` (R77). -/
theorem frame_tick {s : State} {v : Byte} (h : s.accepts = some (.transmitByte v))
    (hr : s.noReset (s.cfg.frameTicks + 1)) {k m : Nat} (hk : k ≤ 9) (hm : m < slotLength s.cfg.toParams k) :
    (s.after (slotFirst s.cfg.toParams k + m)).owned = slotOwned s.cfg v s.dir k m := by
  have hle : slotOffset s.cfg.toParams k + slotLength s.cfg.toParams k ≤ s.cfg.frameTicks := by
    have : ∀ j, k + j ≤ 9 → slotOffset s.cfg.toParams k + slotLength s.cfg.toParams k ≤
        slotOffset s.cfg.toParams (k + j) + slotLength s.cfg.toParams (k + j) := by
      intro j
      induction j with
      | zero => intro _; exact Nat.le_refl _
      | succ j ih =>
        intro hj
        have := ih (by omega)
        rw [← Nat.add_assoc, slotOffset_succ _ (k + j) (by omega)]
        omega
    have := this (9 - k) (by omega)
    rw [show k + (9 - k) = 9 by omega, slot_last_stop] at this
    exact this
  rw [slotFirst, show slotOffset s.cfg.toParams k + 1 + m = 1 + (slotOffset s.cfg.toParams k + m) by omega,
    State.after_add]
  have := owned_in_frame (s := s.after 1) (v := v) (d := s.dir) (k := k) (m := m)
    (by rw [State.after_cfg]; exact owned_after_transmit h) hk (by rw [State.after_cfg]; exact hm)
    (noReset_after (noReset_mono hr (by rw [State.after_cfg]; omega)))
  rwa [State.after_cfg] at this

/-- The tick after the frame of an accepted `TRANSMIT_BYTE` (R84). -/
theorem frame_end {s : State} {v : Byte} (h : s.accepts = some (.transmitByte v))
    (hr : s.noReset (s.cfg.frameTicks + 1)) :
    (s.after (s.cfg.frameTicks + 1)).owned =
      { phase := .idle, tmr := 0, shreg := 0x00#8, dir := s.dir, line := high } := by
  rw [Nat.add_comm, State.after_add]
  have := owned_after_frame (s := s.after 1) (v := v) (d := s.dir)
    (by rw [State.after_cfg]; exact owned_after_transmit h)
    (noReset_after (noReset_mono hr (by rw [State.after_cfg]; omega)))
  rwa [State.after_cfg] at this

/-- Every tick of a frame lies in exactly one slot. -/
theorem tick_in_slot (p : Params) {t : Nat} (h1 : 1 ≤ t) (h2 : t ≤ p.frameTicks) :
    ∃ k m, k ≤ 9 ∧ m < slotLength p k ∧ t = slotFirst p k + m := by
  have : ∀ j, j ≤ 9 → t ≤ slotOffset p j + slotLength p j →
      ∃ k m, k ≤ j ∧ m < slotLength p k ∧ t = slotFirst p k + m := by
    intro j
    induction j with
    | zero =>
      intro _ h
      refine ⟨0, t - 1, Nat.le_refl _, ?_, ?_⟩ <;> simp [slotOffset, slotFirst] at h ⊢ <;> omega
    | succ j ih =>
      intro hj h
      by_cases hle : t ≤ slotOffset p j + slotLength p j
      · obtain ⟨k, m, hk, hm, he⟩ := ih (by omega) hle
        exact ⟨k, m, by omega, hm, he⟩
      · rw [← slotOffset_succ p j (by omega)] at hle
        exact ⟨j + 1, t - slotFirst p (j + 1), Nat.le_refl _, by unfold slotFirst; omega,
          by unfold slotFirst; omega⟩
  exact this 9 (Nat.le_refl _) (by rw [slot_last_stop]; exact h2)

end Sys2Proof.Machine
end

