-- ==== Sys2Proof/Laws/Siblings.lean ====
section
/-! SUPPORT. Every tick gives the sibling bits to the environment (20_memory.md R35), and both port registers keep their
width. -/

namespace Sys2Proof.Machine

theorem siblingsFollow_commit (s : State) (o : Owned) : s.siblingsFollow (s.commit o) :=
  ⟨⟨nextPort_length _ _ _, nextPort_length _ _ _⟩,
    fun _ h hj => ⟨s.commit_dirBit o h hj, s.commit_latBit o h hj⟩⟩

theorem step_siblingsFollow (s : State) : ∃ t, step s = .next t ∧ s.siblingsFollow t :=
  ⟨_, step_eq s, siblingsFollow_commit s _⟩

theorem exec_siblingsFollow (i : Instr) (s : State) : ∃ t, exec i s = .next t ∧ s.siblingsFollow t := by
  cases i <;> exact ⟨_, rfl, siblingsFollow_commit s _⟩

theorem nextState_siblingsFollow (s : State) : s.siblingsFollow s.nextState := by
  rw [State.nextState_eq]; exact siblingsFollow_commit s _

end Sys2Proof.Machine
end

