-- ==== Sys2Proof/Laws/Runs.lean ====
section
/-! SUPPORT. The cases of one tick together with what is accepted in it, the phases, and the lemmas about runs that
the statements on idle ticks, frames and waveforms share. -/

namespace Sys2Proof.Machine

/-! ### Phases and slots -/

theorem phase_cases (p : Phase) : p = .idle ∨ p = .start ∨ p = .stop ∨ ∃ i, i < 8 ∧ p = .data i := by
  cases p <;> first | exact .inl rfl | exact .inr (.inl rfl) | exact .inr (.inr (.inl rfl)) | skip
  all_goals refine .inr (.inr (.inr ?_))
  exacts [⟨0, by decide, rfl⟩, ⟨1, by decide, rfl⟩, ⟨2, by decide, rfl⟩, ⟨3, by decide, rfl⟩,
    ⟨4, by decide, rfl⟩, ⟨5, by decide, rfl⟩, ⟨6, by decide, rfl⟩, ⟨7, by decide, rfl⟩]

theorem data_ne (i : Nat) : Phase.data i ≠ .idle ∧ Phase.data i ≠ .start ∧ Phase.data i ≠ .stop := by
  unfold Phase.data; split <;> simp

theorem data_injective {i j : Nat} (hi : i < 8) (hj : j < 8) (h : Phase.data i = Phase.data j) : i = j := by
  have all : ∀ i < 8, ∀ j < 8, Phase.data i = Phase.data j → i = j := by decide
  exact all i hi j hj h

theorem slotPhase_injective {k j : Nat} (hk : k < 10) (hj : j < 10) (h : slotPhase k = slotPhase j) : k = j := by
  have all : ∀ k < 10, ∀ j < 10, slotPhase k = slotPhase j → k = j := by decide
  exact all k hk j hj h

/-- The slots follow one another without overlap (R77). -/
theorem slotLast_lt_slotFirst (p : Params) {j k : Nat} (h : j < k) (hk : k ≤ 9) : slotLast p j < slotFirst p k := by
  unfold slotLast slotFirst
  induction k with
  | zero => omega
  | succ k ih =>
    rw [slotOffset_succ _ _ (by omega)]
    by_cases e : j = k
    · subst e; omega
    · have := ih (by omega) (by omega); omega

/-! ### One tick -/

theorem exec_reset {s : State} (h : s.rst = true) (i : Instr) : exec i s = step s := by
  rw [step_eq]
  cases i <;> simp only [exec_configure, exec_transmitByte, nextOwned_reset h]

theorem accepts_none_of_command {s : State} (h : s.command = none) : s.accepts = none := by
  simp [State.accepts, h]

theorem onIdle_cases {s : State} (hr : s.rst = false) (hp : s.phase = .idle) :
    (s.accepts = some .configure ∧ s.onIdle = acceptConfigure) ∨
      (∃ v, s.accepts = some (.transmitByte v) ∧ s.onIdle = acceptTransmitByte s.cfg v) ∨
      s.accepts = none ∧ s.onIdle = fun o => o := by
  rw [accepts_eq_of_ready hr hp]
  unfold State.onIdle
  rcases s.command.map decode with _ | (_ | v)
  · exact .inr (.inr ⟨rfl, rfl⟩)
  · exact .inl ⟨rfl, rfl⟩
  · exact .inr (.inl ⟨v, rfl, rfl⟩)

/-- Everything a tick can do to the fields the block owns, in the order of R110. -/
theorem tick_cases (s : State) :
    (s.rst = true ∧ s.nextOwned s.onIdle = .afterReset (Config.freeLineAfterReset s.ticks)) ∨
    (s.rst = false ∧ s.phase = .idle ∧ s.accepts = some .configure ∧
      s.nextOwned s.onIdle = acceptConfigure s.owned) ∨
    (s.rst = false ∧ s.phase = .idle ∧ ∃ v, s.accepts = some (.transmitByte v) ∧
      s.nextOwned s.onIdle = acceptTransmitByte s.cfg v s.owned) ∨
    (s.rst = false ∧ s.phase = .idle ∧ s.accepts = none ∧ s.nextOwned s.onIdle = s.owned) ∨
    (s.rst = false ∧ s.phase ≠ .idle ∧ s.accepts = none ∧
      s.nextOwned s.onIdle = s.owned.sequence s.cfg) := by
  cases hr : s.rst
  · refine .inr ?_
    by_cases hp : s.phase = .idle
    · rw [nextOwned_idle hr hp]
      rcases onIdle_cases hr hp with ⟨h1, h2⟩ | ⟨v, h1, h2⟩ | ⟨h1, h2⟩
      · exact .inl ⟨rfl, hp, h1, by rw [h2]⟩
      · exact .inr (.inl ⟨rfl, hp, v, h1, by rw [h2]⟩)
      · exact .inr (.inr (.inl ⟨rfl, hp, h1, by rw [h2]⟩))
    · exact .inr (.inr (.inr ⟨rfl, hp, accepts_busy hp, nextOwned_busy hr hp _⟩))
  · exact .inl ⟨rfl, nextOwned_reset hr _⟩

/-! ### The wire -/

theorem wire_eq_owned (s : State) : s.wire = if s.owned.dir = false then .driven s.owned.line else .z := rfl

theorem wire_of_owned {s t : State} (h : s.owned = t.owned) : s.wire = t.wire := by
  rw [wire_eq_owned, wire_eq_owned, h]

theorem levelAt_of_wireAt {s : State} {t : Nat} {l : Level} (h : s.wireAt t = .driven l) : s.levelAt t = l := by
  unfold State.levelAt State.levelRead
  unfold State.wireAt at h
  rw [h]

/-! ### Runs -/

/-- Idle ticks in which nothing is accepted leave the fields the block owns (R75). -/
theorem owned_idle_run {s : State} {n : Nat} (hp : s.phase = .idle) (hr : s.noReset n)
    (h : ∀ k, k < n → (s.after k).accepts = none) : (s.after n).owned = s.owned := by
  induction n with
  | zero => rfl
  | succ n ih =>
    have ih := ih (noReset_mono hr (by omega)) (fun k hk => h k (by omega))
    rw [State.after_add s n 1,
      owned_after_idle (noReset_rst hr (by omega)) ((congrArg Owned.phase ih).trans hp) (h n (by omega)), ih]

/-- Every tick of a frame lies in a slot, and the fields the block owns are that slot's. -/
theorem owned_in_some_slot {s : State} {v : Byte} (h : s.accepts = some (.transmitByte v))
    (hr : s.noReset (s.cfg.frameTicks + 1)) {t : Nat} (h1 : 1 ≤ t) (h2 : t ≤ s.cfg.frameTicks) :
    ∃ k m, k ≤ 9 ∧ m < slotLength s.cfg.toParams k ∧ t = slotFirst s.cfg.toParams k + m ∧
      (s.after t).owned = slotOwned s.cfg v s.dir k m := by
  obtain ⟨k, m, hk, hm, he⟩ := tick_in_slot s.cfg.toParams h1 h2
  exact ⟨k, m, hk, hm, he, by rw [he]; exact frame_tick h hr hk hm⟩

end Sys2Proof.Machine
end

