-- ==== Sys2Proof/Laws/Host.lean ====
section
/-! SUPPORT. The host (30_encoding.md R58 to R62): what a tick does to its program, item by item. -/

namespace Sys2Proof.Machine

theorem caller_after_one (s : State) : (s.after 1).caller = s.callerNext := by
  rw [after_one, State.nextState_eq]; rfl

theorem cmdPort_after_one (s : State) : (s.after 1).cmdPort = s.cmdPort.tail := by
  rw [after_one, State.nextState_eq]; rfl

/-! ### Delays of 0 ticks (R59) -/

theorem settle_settle (l : List HostItem) : settle (settle l) = settle l := by
  induction l with
  | nil => rfl
  | cons a l ih =>
    cases a with
    | command i => rfl
    | transmitSample => rfl
    | delayUs n => by_cases h : n = 0 <;> simp [settle, h, ih]
    | delayMs n => by_cases h : n = 0 <;> simp [settle, h, ih]

/-- Passing over zero delays loses no sample. -/
theorem count_sample_settle (l : List HostItem) :
    (settle l).count .transmitSample = l.count .transmitSample := by
  induction l with
  | nil => rfl
  | cons a l ih =>
    cases a with
    | command i => rfl
    | transmitSample => rfl
    | delayUs n => by_cases h : n = 0 <;> simp [settle, h, ih]
    | delayMs n => by_cases h : n = 0 <;> simp [settle, h, ih]

theorem mem_of_mem_settle {l : List HostItem} {x : HostItem} (h : x ∈ settle l) : x ∈ l := by
  induction l with
  | nil => exact h
  | cons a l ih =>
    cases a with
    | command i => exact h
    | transmitSample => exact h
    | delayUs n =>
      by_cases e : n = 0
      · simp only [settle, e, if_true] at h; exact List.mem_cons_of_mem _ (ih h)
      · simp only [settle, e] at h; exact h
    | delayMs n =>
      by_cases e : n = 0
      · simp only [settle, e, if_true] at h; exact List.mem_cons_of_mem _ (ih h)
      · simp only [settle, e] at h; exact h

/-! ### The sequential host at the beginning of an item -/

/-- The block is idle, the program drives the port, and the sequential host stands at the beginning of
`program`, zero delays apart. -/
def State.atItem (s : State) (program : List HostItem) : Prop :=
  s.phase = .idle ∧ s.cmdPort = [] ∧ s.caller.spent = 0 ∧ s.caller.eager = false ∧
    settle s.caller.program = settle program

/-- The sequential host holds `program`, and the program drives the port. -/
def State.holds (s : State) (program : List HostItem) : Prop :=
  s.caller.spent = 0 ∧ settle s.caller.program = settle program ∧ s.cmdPort = [] ∧ s.caller.eager = false

theorem command_of_item {s : State} {i : Instr} {rest program : List HostItem}
    (h : s.atItem program) (hs : settle program = .command i :: rest) (hr : s.rst = false) :
    s.command = some (encode i) ∧ (s.after 1).holds rest := by
  obtain ⟨hp, hc, hsp, he, hprog⟩ := h
  rw [hs] at hprog
  refine ⟨by simp [State.command, hc, State.callerPresents, hr, State.busy, hp, State.callerItemWord, hprog], ?_⟩
  rw [State.holds, caller_after_one, cmdPort_after_one, hc]
  simp [State.callerNext, hc, State.callerOnward, hprog, State.callerHeld, hr, State.busy, hp, hsp, he]

theorem command_of_sample {s : State} {rest program : List HostItem}
    (h : s.atItem program) (hs : settle program = .transmitSample :: rest) (hr : s.rst = false) :
    s.command = some (encode (.transmitByte s.readSample)) ∧ (s.after 1).holds rest := by
  obtain ⟨hp, hc, hsp, he, hprog⟩ := h
  rw [hs] at hprog
  refine ⟨by simp [State.command, hc, State.callerPresents, hr, State.busy, hp, State.callerItemWord, hprog], ?_⟩
  rw [State.holds, caller_after_one, cmdPort_after_one, hc]
  simp [State.callerNext, hc, State.callerOnward, hprog, State.callerHeld, hr, State.busy, hp, hsp, he]

/-- While the block is busy the sequential host keeps its place (R58). -/
theorem holds_while_busy {s : State} {program : List HostItem} (h : s.holds program) (hb : s.phase ≠ .idle) :
    (s.after 1).holds program := by
  obtain ⟨hsp, hprog, hc, he⟩ := h
  have hh : s.callerHeld = true := by simp [State.callerHeld, State.busy, hb]
  have hp : s.callerPresents = false := by simp [State.callerPresents, State.busy, hb, he]
  have ss := settle_settle s.caller.program
  rw [State.holds, caller_after_one, cmdPort_after_one, hc]
  simp only [State.callerNext, hc, State.callerOnward, hh, hp]
  cases hs : settle s.caller.program with
  | nil => rw [hs] at hprog; simp [settle, hsp, he, ← hprog]
  | cons a l =>
    rw [hs] at ss hprog
    rw [← hprog]
    cases a <;> exact ⟨hsp, ss, rfl, he⟩

/-- A delay item of `total` ticks. -/
def HostItem.isDelay (d : HostItem) (total : Nat) : Prop :=
  d = .delayUs total ∨ ∃ n, d = .delayMs n ∧ total = 1000 * n

/-- Inside a delay (R59): nothing is presented, the block keeps its state, one more tick is spent. -/
theorem holds_in_delay {s : State} {d : HostItem} {total : Nat} {rest program : List HostItem}
    (hd : d.isDelay total) (h : s.atItem program) (hs : settle program = d :: rest) :
    ∀ m, m < total → s.noReset m → (s.after m).owned = s.owned ∧ (s.after m).cmdPort = [] ∧
      (s.after m).caller.eager = false ∧ settle (s.after m).caller.program = d :: rest ∧
      (s.after m).caller.spent = m ∧ (s.after m).command = none := by
  obtain ⟨hp, hc, hsp, he, hprog⟩ := h
  rw [hs] at hprog
  have quiet : ∀ t : State, t.cmdPort = [] → settle t.caller.program = d :: rest → t.command = none := by
    intro t h1 h2
    rcases hd with rfl | ⟨n, rfl, -⟩ <;> simp [State.command, h1, State.callerItemWord, h2]
  have fixed : settle (d :: rest) = d :: rest := by rw [← hprog, settle_settle]
  intro m
  induction m with
  | zero => intro _ _; exact ⟨rfl, hc, he, hprog, hsp, quiet s hc hprog⟩
  | succ m ih =>
    intro hm hr
    obtain ⟨a, b, c, e, f, g⟩ := ih (by omega) (noReset_mono hr (by omega))
    have hrst := noReset_rst hr (k := m) (by omega)
    rw [State.after_add s m 1]
    generalize s.after m = t at a b c e f g hrst ⊢
    have hpt : t.phase = .idle := (congrArg Owned.phase a).trans hp
    have key : (t.after 1).cmdPort = [] ∧ (t.after 1).caller.eager = false ∧
        settle (t.after 1).caller.program = d :: rest ∧ (t.after 1).caller.spent = m + 1 := by
      rw [caller_after_one, cmdPort_after_one, b]
      rcases hd with rfl | ⟨n, rfl, rfl⟩ <;>
        simp [State.callerNext, b, State.callerOnward, e, State.callerHeld, hrst, State.busy, hpt,
          Caller.spend, f, hm, c, fixed]
    exact ⟨(owned_after_idle hrst hpt (accepts_none_of_command g)).trans a, key.1, key.2.1, key.2.2.1,
      key.2.2.2, quiet _ key.1 key.2.2.1⟩

end Sys2Proof.Machine
end

