-- ==== Sys2Proof/Laws/PerInstr.lean ====
section
/-! SUPPORT. Statements made for every instruction, constructor by constructor. -/

namespace Sys2Proof.Laws.RowWord

/-- The instruction is well-formed, its row is a row of the opcode table, and its word is a word of that
row. -/
def Statement (i : Instr) : Prop :=
  i.wellFormed = true ∧ i.row ∈ opcodeTable ∧ i.row.covers (encode i) = true

theorem configure : Statement .configure := by
  unfold Statement; decide

theorem transmitByte (value : Byte) : Statement (.transmitByte value) := by
  refine ⟨?_, by simp [Instr.row, opcodeTable], ?_⟩
  · have := value.isLt
    simp only [Instr.wellFormed, decide_eq_true_eq]
    omega
  · revert value; unfold encode Instr.row OpcodeRow.covers; decide

end Sys2Proof.Laws.RowWord
end

