-- ==== Sys2Proof/Laws/Receiver.lean ====
section
/-! SUPPORT. The receivers (43_waveform_and_receiver.md R104, R106): what they assemble depends on the eight sampled
levels only, and every sampling tick of the reference receiver lies inside its slot. -/

namespace Sys2Proof.Machine

/-- The byte assembled from the levels of its own slots is the byte (R97, R104). -/
theorem assembleByte_slotLevel (v : Byte) : assembleByte (fun k => slotLevel v k) = v.toNat := by
  revert v; decide

theorem assembleByte_congr {f g : Nat → Level} (h : ∀ k, 1 ≤ k → k ≤ 8 → f k = g k) :
    assembleByte f = assembleByte g := by
  unfold assembleByte
  congr 1
  apply List.map_congr_left
  intro i hi
  rw [h (i + 1) (by omega) (by simp at hi; omega)]

/-- R104: each sampling tick lies inside its slot. -/
theorem sampleTick_in_slot (c : Config) (k : Nat) :
    slotFirst c.toParams k ≤ sampleTick c.toParams 1 k ∧ sampleTick c.toParams 1 k ≤ slotLast c.toParams k := by
  have := slotLength_pos c k
  unfold sampleTick slotFirst slotLast; omega

/-- Reading at a later tick of a run is reading the later part of the run. -/
theorem receive_after (p : Params) (s : State) (a f : Nat) :
    receive p s.levelAt (a + f) = receive p (s.after a).levelAt f := by
  unfold receive
  apply assembleByte_congr
  intro k _ _
  unfold State.levelAt sampleTick
  rw [← State.after_add]
  congr 2; omega

/-! ### Sampling times of a real bit period (R106) -/

/-- Every sampling time lies in some tick. -/
theorem exists_samplesIn (r : BitPeriod) (f k : Nat) : ∃ t, r.samplesIn f k t := by
  have h : (0 : ℝ) ≤ f + (k + 1 / 2) * r.ticks := by have := r.positive; positivity
  exact ⟨⌊(f : ℝ) + (k + 1 / 2) * r.ticks⌋₊, Nat.floor_le h, Nat.lt_floor_add_one _⟩

/-- Every sampling time lies in one tick only. -/
theorem samplesIn_unique {r : BitPeriod} {f k t u : Nat} (ht : r.samplesIn f k t) (hu : r.samplesIn f k u) :
    t = u := by
  have h1 : (t : ℝ) < u + 1 := lt_of_le_of_lt ht.1 hu.2
  have h2 : (u : ℝ) < t + 1 := lt_of_le_of_lt hu.1 ht.2
  norm_cast at h1 h2
  omega

end Sys2Proof.Machine
end

