-- ==== Sys2Proof/Tests/Slice0.lean ====
section
/-! SUPPORT. Tests. The expected results are those of spec/95_test_vectors.md (each theorem names its vector), and the
words are written out from the encoding of R49 and R50. Then one witness for the hypotheses of every statement of
Certificates/Slice0/Obligations.lean that has some. -/

open Sys2Proof Sys2Proof.Machine

namespace Sys2Proof.Tests

/-! ### States to start from -/

/-- The low `width` bits of a number, bit 0 first. -/
def bits (width n : Nat) : List Level := (List.range width).map n.testBit

/-- A state of the conventions of 95, written as `(PHASE, TMR, SHREG)` with the two whole registers. -/
def row (cfg : Config) (p : Phase) (n : Nat) (v : Byte) (portdir portlat : Nat) : State :=
  { State.reset with
    cfg := cfg, phase := p, tmr := n, shreg := v,
    portdir := bits cfg.portWidth portdir, portlat := bits cfg.portWidth portlat }

/-- `PIN = 3` of an 8-bit port (V2.5). -/
def pinThree : Config := { Params.reference with pin := 3, isLegal := by decide }

/-- The shortest legal frame: every slot is one tick (V7.11), `FRAME_TICKS = 10`, and a `TMR` of one bit is
wide enough for it. Two pins, `PIN = 1`. -/
def tiny : Config :=
  { tickNs := 1000, edgeTicks := 1, dataTicks := 1, overheadTicks := 0, tmrWidth := 1, portWidth := 2, pin := 1,
    isLegal := by decide }

/-- A slot of 70000 ticks, which a `TMR` of 17 bits counts and one of 16 does not (R7). -/
def wide : Config := { Params.reference with edgeTicks := 70000, tmrWidth := 17, isLegal := by decide }

/-- `ConfiguredIdle` at the reference configuration. -/
def ready : State := row .reference .idle 0 0x00 0xFE 0x01

/-- `ConfiguredIdle` at the shortest frame. -/
def tinyReady : State := row tiny .idle 0 0x00 0b01 0b10

/-- The state after reset at the shortest frame, the latch drawn 0. -/
def tinyReset : State := row tiny .idle 0 0x00 0b11 0b00

/-- A state with commands on the port in the ticks to come; `none` is a tick with `cmd_valid = 0`. -/
def presenting (s : State) (words : List (Option Command)) : State :=
  { s with cmdPort := words.map fun w => { valid := w.isSome, word := w.getD 0 } }

/-- What a vector shows of the next state: `(PHASE, TMR, SHREG)` and the two registers. -/
def shows (s : State) (p : Phase) (n : Nat) (v : Byte) (portdir portlat : Nat) : Bool :=
  match step s with
  | .next t =>
    decide (t.phase = p) && decide (t.tmr = n) && decide (t.shreg = v) &&
      decide (t.portdir = bits t.cfg.portWidth portdir) && decide (t.portlat = bits t.cfg.portWidth portlat)
  | .fault _ => false
  | .refused _ => false

/-! ### Decoding: words written out bit by bit (95 section 2.1) -/

/-- V1.1 to V1.3: `OP = 0`, `VALUE` ignored. -/
theorem test_decode_configure :
    decode 0b0_00000000#9 = .configure ∧ decode 0b0_11111111#9 = .configure ∧
      decode 0b0_10110100#9 = .configure := by decide

/-- V1.4 to V1.8: `OP = 1`, the operand is `VALUE`, bit 7 first in the word. -/
theorem test_decode_transmit_byte :
    decode 0b1_00000000#9 = .transmitByte 0 ∧ decode 0b1_11111111#9 = .transmitByte 255 ∧
      decode 0b1_10110100#9 = .transmitByte 180 ∧ decode 0b1_01000001#9 = .transmitByte 65 ∧
      decode 0b1_10000000#9 = .transmitByte 128 := by decide

/-- The same words as table words, and a stray bit above the nine. -/
theorem test_decode_table_word :
    decodeTableWord 9 0x1B4 = some (.transmitByte 180) ∧ decodeTableWord 9 0x0B4 = some .configure ∧
      decodeTableWord 16 0x1B4 = some (.transmitByte 180) ∧ decodeTableWord 16 0x200 = none := by decide

/-- R57: the canonical words, and 95 section 2.1 on the assembler. -/
theorem test_encode :
    encode .configure = 0x000#9 ∧ encode (.transmitByte 0x41) = 0x141#9 ∧
      encode (.transmitByte 13) = 0x10D#9 ∧ encode (.transmitByte 10) = 0x10A#9 := by decide

/-! ### Ill-formed terms are refused -/

/-- A `TRANSMIT_BYTE` of 256 (95 section 2.1), and a decimal digit of 10 (R61). -/
theorem smoke_source :
    (SourceItem.transmitByte 256).wellFormed = false ∧ (SourceItem.transmitByte 255).wellFormed = true ∧
      (SourceItem.transmitDecimalLine 10 0 0).wellFormed = false ∧
      (SourceItem.transmitDecimalLine 0 10 0).wellFormed = false ∧
      (SourceItem.transmitDecimalLine 0 0 10).wellFormed = false ∧
      assemble (.transmitByte 256) = .error (.valueOutOfRange 256) ∧
      assemble (.transmitDecimalLine 1 10 0) = .error (.digitOutOfRange 1 10 0) := by decide

/-- A word of ten bits is no command word. -/
theorem smoke_word : decodeWord 512 = .error (.widerThanCommandWord 512) := by decide

/-- Each constraint of R6 and R7 broken alone. -/
theorem smoke_params :
    ({ Params.reference with edgeTicks := 0 } : Params).legal = false ∧
      ({ Params.reference with dataTicks := 0 } : Params).legal = false ∧
      ({ Params.reference with edgeTicks := 65536 } : Params).legal = false ∧
      ({ Params.reference with dataTicks := 65535 } : Params).legal = false ∧
      ({ Params.reference with tmrWidth := 6 } : Params).legal = false ∧
      ({ Params.reference with tmrWidth := 7 } : Params).legal = true ∧
      ({ Params.reference with edgeTicks := 70000 } : Params).legal = false ∧
      ({ Params.reference with pin := 8 } : Params).legal = false ∧
      Params.reference.legal = true := by decide

/-- Every instruction is well-formed: the operand's type is its range (R51). -/
theorem smoke_instr : Instr.configure.wellFormed = true ∧ (Instr.transmitByte 255).wellFormed = true := by decide

/-! ### One step each -/

/-- V2.5: `CONFIGURE` with `PIN = 3`: only bit 3 of each register changes. -/
theorem test_configure_one_bit :
    shows ((row pinThree .idle 0 0x00 0b10101010 0b01010101).present 0x000#9)
      .idle 0 0x00 0b10100010 0b01011101 = true := by decide

/-- V2.6: a sibling written in the same tick. -/
theorem test_configure_beside_environment :
    shows { (row .reference .idle 0 0x00 0xFF 0x00).present 0x000#9 with
              env := [{ dir := [], lat := [(5, true)] }] } .idle 0 0x00 0xFE 0x21 = true := by decide

/-- 95 section 2.4, ticks 0 and 1. -/
theorem test_transmit_byte_accepted :
    shows (ready.present 0x1B4#9) .start 104 0xB4 0xFE 0x00 = true := by decide

/-- R69 with `TMR_WIDTH = 17`: the Start slot is loaded whole. -/
theorem test_wide_timer :
    shows ((row wide .idle 0 0x00 0xFE 0x01).present 0x1B4#9) .start 70000 0xB4 0xFE 0x00 = true := by decide

/-- V8.3: acceptance overwrites `TMR` and `SHREG`; and V8.4: `CONFIGURE` writes neither. -/
theorem test_acceptance_overwrites :
    shows ((row .reference .idle 5 0x16 0xFE 0x01).present 0x1FF#9) .start 104 0xFF 0xFE 0x00 = true ∧
      shows ((row .reference .idle 5 0x16 0xFF 0x00).present 0x0AB#9) .idle 5 0x16 0xFE 0x01 = true := by
  decide

/-- V2.7: a command on the port of a busy block; only `TMR` moves. -/
theorem test_busy_ignores_command :
    shows ((row .reference .data1 13 0x00 0xFE 0x00).present 0x000#9) .data1 12 0x00 0xFE 0x00 = true := by
  decide

/-- V8.5 and V8.1: the ends of the Start slot and of a data slot. -/
theorem test_slot_ends :
    shows (row .reference .start 1 0xB4 0xFE 0x01) .data0 104 0xB4 0xFE 0x00 = true ∧
      shows (row .reference .data3 0 0x16 0xFE 0x00) .data4 104 0x0B 0xFE 0x01 = true := by decide

/-- 95 section 2.4, ticks 936 and 937; V5.5; V8.2. -/
theorem test_stop :
    shows (row .reference .data7 1 0x01 0xFE 0x01) .stop 104 0x00 0xFE 0x01 = true ∧
      shows ((row .reference .stop 1 0x00 0xFE 0x01).present 0x141#9) .idle 0 0x00 0xFE 0x01 = true ∧
      shows ((row .reference .stop 0 0x16 0xFE 0x01).present 0x1FF#9) .idle 0 0x16 0xFE 0x01 = true := by
  decide

/-- V6.1: reset wins over the frame and over the command. `LINE` is a free value and is not looked at. -/
theorem test_reset :
    let s := { (row .reference .data3 21 0x16 0xFE 0x00).present 0x1FF#9 with rstPin := [true] }
    s.nextState.phase = .idle ∧ s.nextState.tmr = 0 ∧ s.nextState.shreg = 0x00 ∧
      s.nextState.portdir = bits 8 0xFF := by decide

/-- V7.7, V7.8: the mask and the shift. -/
theorem test_mask_and_shift :
    [0xB4#8, 0x2D#8, 0xFF#8, 0x00#8, 0xFE#8].map isolate = [0, 1, 1, 0, 0] ∧
      [0xB4#8, 0xFF#8, 0x01#8, 0x80#8, 0x00#8].map shiftRightOne = [0x5A, 0x7F, 0x00, 0x40, 0x00] := by
  decide

/-- The `FrameWord` column of 95 section 2.3, and its first LOW runs. -/
theorem test_frame_words :
    [0x00#8, 0xFF#8, 0xB4#8, 0x41#8, 0x80#8].map frameWord = [0x200, 0x3FE, 0x368, 0x282, 0x300] ∧
      [0x00#8, 0xFF#8, 0xB4#8, 0x41#8, 0x80#8].map (fun v => 104 + 104 * lowZeros v) =
        [936, 104, 312, 104, 832] := by decide

/-- The sample ticks of 95 section 2.9. -/
theorem test_sample_ticks :
    (List.range 10).map (sampleTick Params.reference 1) =
      [53, 157, 261, 365, 469, 573, 677, 781, 885, 989] := by decide

/-! ### The host -/

/-- 95 section 2.10, the second, third and fourth programs. -/
theorem test_timelines :
    timeline Params.reference 0 [.command .configure, .delayUs 104, .command (.transmitByte 0x41)] =
        [0, 1, 105, 1146] ∧
      timeline Params.reference 0 [.command .configure, .delayUs 0, .command (.transmitByte 0x41)] =
        [0, 1, 1, 1042] ∧
      timeline Params.reference 0
          [.command .configure, .delayMs 1, .command (.transmitByte 0xFF), .delayMs 1,
            .command (.transmitByte 0x00)] =
        [0, 1, 1001, 2042, 3042, 4083] := by decide

/-- Program P3 of 95: the encodings of a decimal line. -/
theorem test_decimal_line :
    decimalDigits 180 = (1, 8, 0) ∧
      (decimalLine 1 8 0).map (fun v => encode (.transmitByte v)) = [0x131, 0x138, 0x130, 0x10D, 0x10A] := by
  decide

set_option maxRecDepth 4000 in
/-- R57: the three number bases, a comment, a blank line, and a line that is no item. -/
theorem test_text :
    parseLine "transmit_byte 0x41 ; 'A'".toList = .ok (some (.transmitByte 65)) ∧
      parseLine "transmit_byte 0b10110100".toList = .ok (some (.transmitByte 180)) ∧
      parseLine "delay_us 104".toList = .ok (some (.delayUs 104)) ∧
      parseLine "  ; nothing here".toList = .ok none ∧
      parseLine "transmit_byte".toList = .error .notAnItem := by decide

set_option maxRecDepth 8000 in
/-- The text of program P6 of 95, assembled. -/
theorem test_program_text :
    (parseProgram ["configure               ; 0x000   tick 0".toList,
        "transmit_byte 0x41      ; 0x141   tick 1".toList]).bind assembleProgram =
      .ok [.command .configure, .command (.transmitByte 0x41)] := by decide

/-! ### Witnesses: a state and operands that meet every hypothesis of a statement together

Runs are those of the shortest frame, ten ticks long. Where a statement has several clauses, each has a
witness of its own, at the ends of its range. -/

/-- The invariant, in the form that can be evaluated. -/
theorem inv_of_checks {s : State} (h : s.portsSized ∧ s.timerFits ∧ (s.tmr = 0 ↔ s.phase = .idle) ∧
    (s.phase = .start ∨ s.phase = .stop → s.tmr ≤ s.cfg.edgeTicks) ∧
    (s.phase = .start → s.line = low) ∧ (s.phase = .stop → s.line = high) ∧
    (s.phase = .stop ∨ s.phase = .idle → s.shreg = 0) ∧
    (s.phase = .idle → s.dir = false → s.line = high) ∧
    ∀ i, i < 8 → s.phase = .data i → s.tmr ≤ s.cfg.dataPeriod ∧ s.line = s.shreg.getLsbD 0 ∧
      s.shreg.toNat < 2 ^ (8 - i)) : s.Inv := by
  obtain ⟨a, w, b, c, d, e, f, g, k⟩ := h
  exact ⟨a, w, b, c, fun i hi => (k i hi.1 hi.2).1, d, e, fun i hi => (k i hi.1 hi.2).2.1,
    fun i hi => (k i hi.1 hi.2).2.2, f, g⟩

theorem witness_EveryCommandWordIsOneOfTwoOperations :
    (∃ w : Command, w &&& 0x100#9 = 0x000#9) ∧ ∃ w : Command, w &&& 0x100#9 = 0x100#9 :=
  ⟨⟨0x0FF#9, by decide⟩, ⟨0x100#9, by decide⟩⟩

theorem witness_CommandsAreNineBits : (511 : Nat) < 512 ∧ 512 ≤ (512 : Nat) := by decide

theorem witness_AssemblerWords : (255 : Nat) ≤ 255 ∧ 255 < (256 : Nat) := by decide

theorem witness_DecimalLineExpansion : ∃ d2 d1 d0 : Nat, d2 ≤ 9 ∧ d1 ≤ 9 ∧ d0 ≤ 9 ∧ d2 = 9 ∧ d0 = 0 :=
  ⟨9, 9, 0, by decide⟩

theorem witness_StepExecutesTheCommandOnThePort :
    (ready.present 0x1FF#9).command = some 0x1FF#9 ∧ ready.command = none ∧
      decodeTableWord 9 0x1FF = some (.transmitByte 255) ∧ decodeTableWord 9 0x000 = some .configure ∧
      decodeTableWord 16 0x1FF = some (.transmitByte 255) ∧ decodeTableWord 16 0x200 = none := by
  decide

theorem witness_EveryTickMovesTheAgentsOn : (presenting ready [some 0x100#9]).cmdPort ≠ [] := by decide

theorem witness_ResetActionGivesTheResetState :
    { ready with rstPin := [true] }.rst = true ∧ { ready with rstPin := [true] }.nextState.rst = false := by
  decide

theorem witness_ResetForgetsTheFrame :
    let s := { row .reference .data3 21 0x16 0xFE 0x00 with rstPin := [true] }
    s.rst = true ∧ s.phase ≠ .idle ∧ (s.after 1).rst = false := by decide

theorem witness_ConfigureWhenAccepted :
    State.reset.rst = false ∧ State.reset.phase = .idle ∧ ready.rst = false ∧ ready.phase = .idle := by
  decide

theorem witness_ConfigureIsIdempotent :
    (ready.rst = false ∧ ready.phase = .idle ∧ ready.dir = false ∧ ready.line = high) ∧
      (∀ k, k ≤ 2 →
        ((presenting State.reset [some 0x000#9, some 0x0B4#9, some 0x000#9]).after k).accepts =
          some .configure) ∧
      (ready.present 0x000#9).dir = false ∧ (ready.present 0x000#9).accepts = some .configure := by decide

theorem ready_inv : (ready.present 0x000#9).Inv := inv_of_checks (by decide)

theorem witness_AllConfigureWordsActAlike : opField 0x000#9 = false ∧ opField 0x0FF#9 = false := by decide

theorem witness_TransmitByteWhenAccepted :
    let s := ready.present 0x1B4#9
    s.rst = false ∧ s.phase = .idle ∧ s.command = some 0x1B4#9 ∧ opField 0x1B4#9 = true ∧
      valueField 0x1B4#9 = 0xB4#8 := by decide

/-- The ends of the range of `TMR`: 2 is the last that is held, 1 the last slot length. -/
theorem witness_SlotIsHeldForItsTicks :
    (let s := row .reference .stop 2 0x00 0xFE 0x01
     s.rst = false ∧ s.phase ≠ .idle ∧ 1 < s.tmr) ∧
      (let s := row .reference .start 1 0xB4 0xFE 0x00
       s.phase ≠ .idle ∧ s.tmr = 1 ∧ s.noReset 1) ∧
      (let s := row .reference .start 104 0xB4 0xFE 0x00
       s.phase ≠ .idle ∧ s.tmr = 104 ∧ s.noReset 104) := by decide

theorem witness_StartSlotEnds :
    (let s := row .reference .start 1 0xB4 0xFE 0x00
     s.rst = false ∧ s.phase = .start ∧ s.tmr ≤ 1) ∧
      (let s := row .reference .start 0 0x01 0xFE 0x00
       s.rst = false ∧ s.phase = .start ∧ s.tmr ≤ 1) := by decide

theorem witness_DataSlotEnds :
    (let s := row .reference .data0 1 0xB4 0xFE 0x00
     s.rst = false ∧ s.phase = .data 0 ∧ s.tmr ≤ 1) ∧
      (let s := row .reference .data6 0 0x02 0xFE 0x00
       s.rst = false ∧ s.phase = .data 6 ∧ s.tmr ≤ 1) := by decide

theorem witness_LastDataSlotEnds :
    let s := row .reference .data7 1 0x01 0xFE 0x01
    (s.rst = false ∧ s.phase = .data7 ∧ s.tmr ≤ 1) ∧ s.Inv :=
  ⟨by decide, inv_of_checks (by decide)⟩

theorem witness_StopSlotEnds :
    let s := row .reference .stop 1 0x00 0xFE 0x01
    (s.rst = false ∧ s.phase = .stop ∧ s.tmr ≤ 1) ∧ s.Inv ∧ s.nextState.rst = false :=
  ⟨by decide, inv_of_checks (by decide), by decide⟩

theorem witness_IdleWithoutCommandChangesNothing :
    (ready.rst = false ∧ ready.phase = .idle ∧ ready.command = none) ∧ ready.noReset 3 ∧
      ∀ k, k < 3 → (ready.after k).command = none := by decide

theorem witness_CommandWhileBusyHasNoEffect :
    let s := row .reference .data1 13 0x00 0xFE 0x00
    s.phase ≠ .idle ∧ s.Inv ∧ s.noReset s.cfg.frameTicks :=
  ⟨by decide, inv_of_checks (by decide), fun k _ => by cases k <;> rfl⟩

theorem witness_WordWithoutValidIsIgnored :
    let s := ready.presentNothing 0x1FF#9
    s.rst = false ∧ s.phase = .idle ∧ s.accepts = none := by decide

/-- A `TRANSMIT_BYTE` accepted with the line at rest, and no reset during the frame. -/
theorem witness_OperandIsSampledOnce :
    let s := tinyReady.present 0x1B4#9
    s.accepts = some (.transmitByte 0xB4) ∧ s.noReset (s.cfg.frameTicks + 1) := by decide

theorem witness_EnvironmentGivesSiblingBitsAnyValue :
    (∃ d l : Nat → Level, { tinyReady with
        env := [{ dir := (List.range tiny.portWidth).map fun j => (j, d j),
                  lat := (List.range tiny.portWidth).map fun j => (j, l j) }] }.env =
      { dir := (List.range tiny.portWidth).map fun j => (j, d j),
        lat := (List.range tiny.portWidth).map fun j => (j, l j) } :: []) ∧
      (tinyReady.env = [] ∧ tinyReady.envTail = .idle) ∧
      { tinyReady with envTail := .free }.env = [] ∧ { tinyReady with envTail := .free }.envTail = .free :=
  ⟨⟨fun _ => true, fun _ => false, rfl⟩, ⟨rfl, rfl⟩, rfl, rfl⟩

/-- Two states that differ in the sibling bits and in the environment alone. -/
theorem witness_EnvironmentCannotDisturbTheBlock :
    let s := tinyReady.present 0x1B4#9
    let s' := { s with portdir := bits 2 0b00, portlat := bits 2 0b11, envTail := .free }
    s' ≠ s ∧ s'.cfg = s.cfg ∧ s'.owned = s.owned ∧ s'.ticks = s.ticks ∧ s'.rstPin = s.rstPin ∧
      s'.cmdPort = s.cmdPort ∧ s'.caller = s.caller := by decide

theorem witness_LineIsWrittenOnlyAtSlotBoundaries :
    (let s := ready.present 0x1B4#9
     s.nextState.line ≠ s.line) ∧
      (let s := State.reset.present 0x000#9
       s.nextState.line ≠ s.line) ∧
      (let s := row .reference .data7 1 0x00 0xFE 0x00
       s.nextState.line ≠ s.line) := by decide

theorem witness_DirectionIsWrittenOnlyByConfigureAndReset :
    (let s := State.reset.present 0x000#9
     s.nextState.dir ≠ s.dir) ∧
      (let s := { ready with rstPin := [true] }
       s.nextState.dir ≠ s.dir) := by decide

theorem witness_PhaseMovesInOrder :
    { ready with rstPin := [true] }.rst = true ∧ (ready.rst = false ∧ ready.phase = .idle) ∧
      (let s := row .reference .data7 1 0x01 0xFE 0x01
       s.rst = false ∧ s.phase ≠ .idle ∧ s.tmr ≤ 1) := by decide

/-- Two operands, two lines, one kind of command. -/
theorem witness_TimingDoesNotDependOnData :
    let s := ready.present 0x100#9
    let s' := (row .reference .idle 0 0x16 0xFF 0x00).present 0x1FF#9
    s'.cfg = s.cfg ∧ s'.phase = s.phase ∧ s'.tmr = s.tmr ∧ s'.rst = s.rst ∧
      s'.accepts.map Instr.row = s.accepts.map Instr.row ∧ s'.accepts ≠ s.accepts := by decide

theorem witness_EveryStepKeepsTheInvariant :
    (ready.present 0x1B4#9).Inv ∧ (∃ t, step (ready.present 0x1B4#9) = .next t) ∧
      (row .reference .data7 1 0x01 0xFE 0x01).Inv ∧ (row .reference .start 104 0x01 0xFE 0x00).Inv :=
  ⟨inv_of_checks (by decide), ⟨_, rfl⟩, inv_of_checks (by decide), inv_of_checks (by decide)⟩

theorem witness_PinIsOutputExactlyAfterConfigure :
    let s := presenting tinyReset [none, some 0x000#9]
    s.dir = true ∧ s.noReset 2 ∧ (s.after 2).dir = false ∧ (s.after 1).dir = true := by decide

theorem witness_IdleLineIsHighAfterAnyCommand :
    (let s := presenting tinyReset [some 0x000#9]
     s.phase = .idle ∧ s.noReset 1 ∧ (s.after 1).phase = .idle ∧ (s.after 0).accepts = some .configure) ∧
      (tinyReset.phase = .idle ∧ tinyReset.noReset 2 ∧ (tinyReset.after 2).phase = .idle ∧
        ∀ k, k < 2 → (tinyReset.after k).accepts = none) := by decide

theorem witness_StatusOutputs :
    (let s := tinyReady.present 0x1B4#9
     s.accepts = some (.transmitByte 0xB4) ∧ s.noReset (s.cfg.frameTicks + 1)) ∧
      (tinyReady.present 0x000#9).accepts = some .configure := by decide

theorem witness_LineOutputsAndWire : ready.dir = false ∧ State.reset.dir = true := by decide

theorem witness_ShiftAndMask : (0 : Nat) < 8 ∧ (7 : Nat) < 8 ∧ (6 : Nat) < 7 := by decide

theorem witness_SlotLevels : 1 ≤ (1 : Nat) ∧ (8 : Nat) ≤ 8 ∧ (9 : Nat) < 10 := by decide

theorem witness_PhaseCodesAndLoopCounter : (0 : Nat) < 8 ∧ (7 : Nat) < 8 := by decide

/-- One frame, seen whole: the first and the last slot. -/
theorem witness_SlotTimeline :
    let s := tinyReady.present 0x1B4#9
    s.accepts = some (.transmitByte 0xB4) ∧ s.noReset (s.cfg.frameTicks + 1) ∧
      0 < slotLength s.cfg.toParams 0 ∧ 0 < slotLength s.cfg.toParams 9 := by decide

theorem witness_FrameShapeOnTheWire :
    let s := tinyReady.present 0x1B4#9
    s.accepts = some (.transmitByte 0xB4) ∧ s.dir = false ∧ s.noReset (s.cfg.frameTicks + 1) ∧
      slotFirst s.cfg.toParams 0 ≤ 1 ∧ 10 ≤ slotLast s.cfg.toParams 9 := by decide

theorem witness_SlotsLastExactly :
    (let s := tinyReady.present 0x1B4#9
     s.accepts = some (.transmitByte 0xB4) ∧ s.noReset (s.cfg.frameTicks + 1)) ∧
      Config.reference.dataPeriod = Config.reference.edgeTicks := by decide

theorem witness_StateAfterAFrame :
    let s := tinyReady.present 0x1B4#9
    let c := tinyReset.present 0x000#9
    s.accepts = some (.transmitByte 0xB4) ∧ s.noReset (s.cfg.frameTicks + 1) ∧
      (s.after (s.cfg.frameTicks + 1)).rst = false ∧
      (c.accepts = some .configure ∧ c.tmr = 0 ∧ s.dir = false) ∧
      (let s' := { s with shreg := 0x16, portlat := bits 2 0b11 }
       s'.cfg = s.cfg ∧ s'.dir = s.dir ∧ s'.accepts = some (.transmitByte 0xB4) ∧
        s'.noReset (s.cfg.frameTicks + 1)) := by decide

theorem witness_FirstLowRunCountsTheLowZeros :
    let s := tinyReady.present 0x1B4#9
    s.accepts = some (.transmitByte 0xB4) ∧ s.wire = .driven high ∧ s.noReset (s.cfg.frameTicks + 1) ∧
      lowZeros 0x00 = 8 ∧ lowZeros 0xFF = 0 := by decide

/-- And the `CONFIGURE` that comes in the tick after the lost frame. -/
theorem witness_TransmitBeforeConfigureIsLost :
    let s := presenting tinyReset
      [some 0x155#9, none, none, none, none, none, none, none, none, none, none, some 0x000#9]
    s.accepts = some (.transmitByte 0x55) ∧ s.dir = true ∧ s.noReset (s.cfg.frameTicks + 1) ∧
      (s.after (s.cfg.frameTicks + 1)).accepts = some .configure := by decide

/-- Two commands with nothing between them but the first one's frame: the host waits until it may present
the second. -/
def twoCalls : State :=
  presenting tinyReady
    [some 0x141#9, none, none, none, none, none, none, none, none, none, none, some 0x142#9]

theorem witness_BackToBackCalls :
    twoCalls.accepts = some (.transmitByte 65) ∧ twoCalls.noReset (twoCalls.cfg.frameTicks + 2) ∧
      (twoCalls.after twoCalls.cfg.pitchMin).command = some 0x142#9 ∧
      (twoCalls.after twoCalls.cfg.pitchMin).accepts = some (.transmitByte 66) ∧ twoCalls.dir = false := by
  decide

theorem quiet_between {s : State} {t : Nat} (h : (s.after t).accepts = none) : s.noFrameBegins t := by
  intro v; rw [h]; simp

theorem quiet_at_configure {s : State} {t : Nat} (h : (s.after t).accepts = some .configure) :
    s.noFrameBegins t := by
  intro v; rw [h]; simp

/-- (a) with the shortest gap; (b) with one tick between the two commands. -/
theorem witness_IdleBetweenFramesAndBeforeTheFirst :
    (twoCalls.accepts = some (.transmitByte 65) ∧ twoCalls.dir = false ∧ 0 < 11 ∧ twoCalls.noReset 11 ∧
      (twoCalls.after 11).accepts = some (.transmitByte 66) ∧
      ∀ t, 0 < t → t < 11 → twoCalls.noFrameBegins t) ∧
      (let s := presenting tinyReset [some 0x000#9, none, some 0x141#9]
       s.accepts = some .configure ∧ 0 < 2 ∧ s.noReset 2 ∧ (s.after 2).accepts = some (.transmitByte 65) ∧
        ∀ t, t < 2 → s.noFrameBegins t) := by
  have gap : ∀ t, t < 11 → 0 < t → (twoCalls.after t).accepts = none := by decide
  refine ⟨⟨by decide, by decide, by decide, by decide, by decide,
    fun t h0 h => quiet_between (gap t h h0)⟩, by decide, by decide, by decide, by decide, ?_⟩
  intro t ht
  rcases (by omega : t = 0 ∨ t = 1) with rfl | rfl
  · exact quiet_at_configure (by decide)
  · exact quiet_between (by decide)

theorem witness_LineRestsAtHigh :
    (twoCalls.accepts = some (.transmitByte 65) ∧ twoCalls.dir = false ∧ twoCalls.noReset 11 ∧
      ∀ t, 0 < t → t < 11 → twoCalls.noFrameBegins t) ∧
      (let s := presenting tinyReset [some 0x000#9]
       s.accepts = some .configure ∧ s.noReset 1 ∧ ∀ t, t < 1 → s.noFrameBegins t) ∧
      (let s := row .reference .start 104 0x01 0xFE 0x00
       s.Inv ∧ s.wire = .driven low) := by
  have gap : ∀ t, t < 11 → 0 < t → (twoCalls.after t).accepts = none := by decide
  refine ⟨⟨by decide, by decide, by decide, fun t h0 h => quiet_between (gap t h h0)⟩,
    ⟨by decide, by decide, ?_⟩, inv_of_checks (by decide), by decide⟩
  intro t ht
  obtain rfl : t = 0 := by omega
  exact quiet_at_configure (by decide)

theorem witness_ReferenceReceiverRecoversTheByte :
    let s := tinyReady.present 0x1B4#9
    s.accepts = some (.transmitByte 0xB4) ∧ s.dir = false ∧ s.wire = .driven high ∧
      s.noReset (s.cfg.frameTicks + 1) := by decide

theorem witness_ConsecutiveFramesAreBothReceived :
    twoCalls.accepts = some (.transmitByte 65) ∧
      (twoCalls.after (twoCalls.cfg.frameTicks + 1)).accepts = some (.transmitByte 66) ∧
      twoCalls.dir = false ∧ twoCalls.noReset (2 * twoCalls.cfg.frameTicks + 2) := by decide

/-- A real bit period of one tick, at the shortest frame. -/
theorem witness_ReceiverClockWindow :
    (let s := tinyReady.present 0x1B4#9
     s.accepts = some (.transmitByte 0xB4) ∧ s.dir = false ∧ s.noReset (s.cfg.frameTicks + 1)) ∧
      ∃ r : BitPeriod, r.readsFrame tiny.toParams ∧ r.samplesIn 1 0 1 ∧ r.samplesIn 1 9 10 := by
  refine ⟨by decide, ⟨1, one_pos⟩, ?_, by norm_num [BitPeriod.samplesIn], by norm_num [BitPeriod.samplesIn]⟩
  intro k hk
  interval_cases k <;> norm_num [BitPeriod.readsSlot, slotOffset, slotLength, tiny, Params.dataPeriod]

/-- The ends of the windows: the lowest period and the first one too long, as fractions, which are real
periods; and the setting `E = R = 104`. -/
theorem witness_ReceiverClockWindow_ends :
    Params.reference.edgeTicks = 104 ∧ Params.reference.dataPeriod = 104 ∧
      (let q : PeriodFraction := { num := 1872, den := 19, numPositive := by decide, denPositive := by decide }
       q.readsFrame Params.reference ∧ ∃ r : BitPeriod, q.is r) ∧
      (let q : PeriodFraction := { num := 2080, den := 19, numPositive := by decide, denPositive := by decide }
       ¬q.readsFrame Params.reference ∧ ∃ r : BitPeriod, q.is r) ∧
      ∃ r : BitPeriod, r.ticks = 104 :=
  ⟨rfl, rfl, ⟨by decide, ⟨1872 / 19, by norm_num⟩, by norm_num [PeriodFraction.is]⟩,
    ⟨by decide, ⟨2080 / 19, by norm_num⟩, by norm_num [PeriodFraction.is]⟩, ⟨104, by norm_num⟩, rfl⟩

theorem witness_SequentialHostIsServedAtOnce :
    (let s := tinyReady.withProgram [.command (.transmitByte 65), .delayUs 3] false
     s.cmdPort = [] ∧ s.rst = false ∧ s.phase = .idle ∧
      s.caller.program = .command (.transmitByte 65) :: [.delayUs 3]) ∧
      (let s := (row tiny .start 1 0x41 0b01 0b00).withProgram [.command .configure] false
       s.cmdPort = [] ∧ s.caller.eager = false ∧ s.busy = true) ∧
      (let s := { tinyReady.withProgram [.command .configure] false with rstPin := [true] }
       s.cmdPort = [] ∧ s.caller.eager = false ∧ s.rst = true) := by decide

theorem witness_EagerHostMakesNoDifference :
    let s := { tinyReady with caller := { tinyReady.caller with samples := [180, 181] } }
    [HostItem.command .configure, .transmitSample, .delayUs 2, .transmitSample].count .transmitSample ≤
        s.caller.samples.length ∧
      [HostItem.command (.transmitByte 65), .delayMs 1].count .transmitSample ≤
        tinyReady.caller.samples.length ∧
      s.cmdPort = [] ∧ tinyReady.cmdPort = [] := by decide

theorem witness_SampleIsTransmitted :
    let s := tinyReady.withProgram [.transmitSample] false
    let t := { s with caller := { s.caller with samples := [180] } }
    (s.cmdPort = [] ∧ s.rst = false ∧ s.phase = .idle ∧ s.caller.program = .transmitSample :: [] ∧
      s.caller.samples = []) ∧
      t.cmdPort = [] ∧ t.rst = false ∧ t.phase = .idle ∧ t.caller.program = .transmitSample :: [] ∧
      t.caller.samples = 180 :: [] := by decide

/-- A program with a command of each kind, a sample and a delay. -/
theorem witness_HostTimeline :
    let program : List HostItem :=
      [.command .configure, .delayUs 2, .command (.transmitByte 65), .transmitSample]
    tinyReset.phase = .idle ∧ tinyReset.cmdPort = [] ∧
      (timeline tiny.toParams 0 program).getLast? = some 25 ∧ tinyReset.noReset 25 ∧
      program[2]? = some (.command (.transmitByte 65)) ∧ (timeline tiny.toParams 0 program)[2]? = some 3 ∧
      program[3]? = some .transmitSample ∧ (timeline tiny.toParams 0 program)[3]? = some 14 := by decide

theorem witness_FinishedRunStaysFinished : ready.runOver = true ∧ ready.noReset 5 := by decide

theorem witness_StartUpProgram :
    tinyReset.phase = .idle ∧ tinyReset.dir = true ∧ tinyReset.cmdPort = [] ∧
      tinyReset.noReset (0 + tinyReset.cfg.frameTicks + 3) ∧ tinyReset.cfg.edgeTicks ≤ 0 + 1 := by decide

end Sys2Proof.Tests
end

/-! ## The outputs of the block as functions of its state (10_state.md R15, R18, R22 to R24) -/

namespace Sys2Proof.Machine

/-! ### The status bits (R22) -/

@[simp] theorem State.busy_eq_true_iff (s : State) : s.busy = true ↔ s.phase ≠ .idle := decide_eq_true_iff

@[simp] theorem State.busy_eq_false_iff (s : State) : s.busy = false ↔ s.phase = .idle := by
  rw [← Bool.not_eq_true, State.busy_eq_true_iff, not_not]

theorem State.cmdReady_eq_true_iff (s : State) : s.cmdReady = true ↔ s.phase = .idle ∧ s.rst = false := by
  simp only [State.cmdReady, Bool.and_eq_true, decide_eq_true_eq, Bool.not_eq_true']

/-- `busy` covers the frame of an accepted `TRANSMIT_BYTE` and no more: the acceptance tick is idle, every tick
of the frame lies in a slot, and no slot is `IDLE`; the tick after the frame is idle again. -/
theorem busyAt_transmit_iff {s : State} {v : Byte} (h : s.accepts = some (.transmitByte v))
    (hr : s.noReset (s.cfg.frameTicks + 1)) {n : Nat} (hn : n ≤ s.cfg.frameTicks + 1) :
    s.busyAt n = true ↔ 1 ≤ n ∧ n ≤ s.cfg.frameTicks := by
  rw [State.busyAt, State.busy_eq_true_iff]
  rcases (by omega : n = 0 ∨ n = s.cfg.frameTicks + 1 ∨ 1 ≤ n ∧ n ≤ s.cfg.frameTicks) with rfl | rfl | ⟨h1, h2⟩
  · obtain ⟨-, idle, -⟩ := accepts_some h
    simp [idle]
  · have idle : (s.after (s.cfg.frameTicks + 1)).phase = .idle := congrArg Owned.phase (frame_end h hr)
    simp [idle]
  · obtain ⟨k, m, -, -, -, slot⟩ := owned_in_some_slot h hr h1 h2
    have phase : (s.after n).phase = slotPhase k := congrArg Owned.phase slot
    simp [phase, slotPhase_ne_idle, h1, h2]

theorem busyAt_one_configure {s : State} (h : s.accepts = some .configure) : s.busyAt 1 = false := by
  obtain ⟨-, idle, -⟩ := accepts_some h
  have kept : (s.after 1).phase = s.phase := congrArg Owned.phase (owned_after_configure h)
  rw [State.busyAt, State.busy_eq_false_iff, kept, idle]

/-- Settles O38: each clause is the lemma above that states it; that nothing is accepted while `busy = 1` is
`accepts_busy`. -/
theorem statusOutputs : Obligations.StatusOutputs :=
  ⟨fun s => ⟨s.cmdReady_eq_true_iff, s.busy_eq_true_iff⟩,
    fun _ _ h hr _ hn => busyAt_transmit_iff h hr hn,
    fun _ h => busyAt_one_configure h,
    fun s h => accepts_busy (s.busy_eq_true_iff.mp h),
    State.reset.busy_eq_false_iff.mpr rfl⟩

/-! ### The line outputs and the wire (R23, R24) -/

theorem State.lineOe_eq_true_iff (s : State) : s.lineOe = true ↔ s.dir = false := by
  rw [State.lineOe, Bool.not_eq_true']

theorem State.wire_of_output {s : State} (h : s.dir = false) : s.wire = .driven s.line := if_pos h

theorem State.wire_of_input {s : State} (h : s.dir = true) : s.wire = .z := by simp [State.wire, h]

theorem State.levelRead_of_driven {s : State} {l : Level} (h : s.wire = .driven l) : s.levelRead = l :=
  levelAt_of_wireAt (t := 0) h

theorem State.levelRead_of_z {s : State} (h : s.wire = .z) :
    s.levelRead = Config.freeUndrivenLevel s.ticks := by
  simp only [State.levelRead, h]

/-- Settles O39, by the two cases of `DIR` for the wire and the two cases of the wire for what is read. -/
theorem lineOutputsAndWire : Obligations.LineOutputsAndWire := by
  intro s
  refine ⟨rfl, s.lineOe_eq_true_iff, rfl, fun output => ?_, fun input => ?_⟩
  · have wire := State.wire_of_output output
    exact ⟨wire, State.levelRead_of_driven wire⟩
  · have wire := State.wire_of_input input
    exact ⟨wire, State.levelRead_of_z wire⟩

/-! ### The phase codes and the loop counter (R15, R18) -/

theorem Phase.data_code {i : Nat} (hi : i < 8) : (Phase.data i).code.toNat = 2 + i := by
  interval_cases i <;> rfl

theorem Phase.data_bitcnt {i : Nat} (hi : i < 8) : (Phase.data i).bitcnt = 8 - i := by
  interval_cases i <;> rfl

/-- Settles O42: the phases that are no data slot have their values by definition, the data slots by
`Phase.data_code` and `Phase.data_bitcnt`. -/
theorem phaseCodesAndLoopCounter : Obligations.PhaseCodesAndLoopCounter :=
  ⟨rfl, rfl, rfl, fun _ hi => ⟨Phase.data_code hi, Phase.data_bitcnt hi⟩, rfl, rfl, rfl⟩

end Sys2Proof.Machine

/-! ## The shared port registers (20_memory.md R35) -/

namespace Sys2Proof.Machine

/-- Settles O26: every tick, of a step or of an instruction executed, is a `State.commit`, and a commit builds both
registers bit by bit: the block's bit at `PIN` (`State.owned_commit`), the environment's at every other pin
(`siblingsFollow_commit`). -/
theorem siblingBitsBelongToTheEnvironment : Obligations.SiblingBitsBelongToTheEnvironment :=
  ⟨step_siblingsFollow, exec_siblingsFollow, fun s o => ⟨s.owned_commit o, siblingsFollow_commit s o⟩⟩

end Sys2Proof.Machine

/-! ## The command port at the times when it has no effect (30_encoding.md R54 to R56) -/

namespace Sys2Proof.Machine

/-! ### The operand is sampled once (R56) -/

/-- A busy tick reads nothing of the host's side: with another one, only the host's side of the next state is
another. -/
theorem nextState_withHostSide_busy {s : State} (hr : s.rst = false) (hp : s.phase ≠ .idle)
    (port : List CommandPins) (host : Caller) :
    (s.withHostSide port host).nextState =
      s.nextState.withHostSide port.tail (s.withHostSide port host).callerNext := by
  rw [State.nextState_eq, State.nextState_eq, nextOwned_busy hr hp,
    nextOwned_busy (s := s.withHostSide port host) hr hp]
  rfl

/-- As long as the block is busy, two runs that begin with different hosts differ in the host's side only. -/
theorem after_withHostSide_busy {s : State} {n : Nat} (hr : s.noReset n)
    (busy : ∀ k, k < n → (s.after k).phase ≠ .idle) (port : List CommandPins) (host : Caller) :
    ∃ port' host', (s.withHostSide port host).after n = (s.after n).withHostSide port' host' := by
  induction n with
  | zero => exact ⟨port, host, rfl⟩
  | succ n ih =>
    obtain ⟨port', host', same⟩ := ih (noReset_mono hr (by omega)) fun k hk => busy k (by omega)
    refine ⟨port'.tail, ((s.after n).withHostSide port' host').callerNext, ?_⟩
    rw [State.after_succ, same, State.after_succ]
    exact nextState_withHostSide_busy (noReset_rst hr (by omega)) (busy n (by omega)) port' host'

/-- In the `FRAME_TICKS` ticks that follow the acceptance of a `TRANSMIT_BYTE` the block is busy (R22). -/
theorem phase_ne_idle_in_frame {s : State} {v : Byte} (h : s.accepts = some (.transmitByte v))
    (hr : s.noReset (s.cfg.frameTicks + 1)) {k : Nat} (hk : k < s.cfg.frameTicks) :
    ((s.after 1).after k).phase ≠ .idle := by
  have busy : s.busyAt (1 + k) = true := (busyAt_transmit_iff h hr (by omega)).mpr ⟨by omega, by omega⟩
  rwa [State.busyAt, State.busy_eq_true_iff, State.after_add] at busy

/-- Settles O25: the operand is in `SHREG` from the tick after the acceptance, and every tick from there to the
last of the frame is busy, so that the host's side reaches no other part of the state. -/
theorem operandIsSampledOnce : Obligations.OperandIsSampledOnce := by
  intro s v port host h hr
  have latched : (s.after 1).shreg = v := congrArg Owned.shreg (owned_after_transmit h)
  refine ⟨latched, fun n hn => ?_⟩
  obtain ⟨port', host', same⟩ := after_withHostSide_busy (s := s.after 1) (n := n)
    (noReset_after (noReset_mono hr (by omega)))
    (fun k hk => phase_ne_idle_in_frame h hr (Nat.lt_of_lt_of_le hk hn)) port host
  rw [same]
  exact ⟨rfl, rfl, rfl⟩

/-! ### A command presented to a busy block (R54) -/

@[simp] theorem State.presentNothing_rst (s : State) (w : Command) : (s.presentNothing w).rst = false := by
  cases h : s.rstPin <;> simp [State.rst, State.presentNothing, rstLow, h]

@[simp] theorem State.presentNothing_command (s : State) (w : Command) : (s.presentNothing w).command = none :=
  rfl

/-- The levels of the command port in a tick are gone at its end, and until then they hold the host back whatever
they are. -/
theorem commit_present (s : State) (w u : Command) (o : Owned) :
    (s.present w).commit o = (s.presentNothing u).commit o := rfl

/-- A command presented to a busy block leaves the step a tick without command makes (R54). -/
theorem step_present_busy {s : State} (hp : s.phase ≠ .idle) (w u : Command) :
    step (s.present w) = step (s.presentNothing u) := by
  rw [step_busy (s.present_rst w) hp, step_busy (s.presentNothing_rst u) hp]
  exact congrArg Host.Outcome.next (commit_present s w u _)

/-! ### The rest of a frame, from any tick of it (R54, R77) -/

theorem slotPhase_succ {k : Nat} (hk : k < 9) : (slotPhase k).succ = slotPhase (k + 1) := by
  interval_cases k <;> rfl

/-- The end of a slot loads the length of the next one (R71 to R73). -/
theorem endSlot_tmr {o : Owned} (c : Config) {k : Nat} (hk : k < 9) (h : o.phase = slotPhase k) :
    (o.endSlot c).tmr = slotLength c.toParams (k + 1) := by
  rcases k with _ | i
  · simp [endSlot_start c h, slotLength]
  rcases (by omega : i = 7 ∨ i ≤ 6) with rfl | hi
  · simp [endSlot_data7 c h, slotLength]
  · have data : o.phase = .data i := by rw [h, slotPhase, if_neg (by omega), if_pos (by omega), Nat.add_sub_cancel]
    rw [endSlot_data c hi data, slotLength, if_neg (by omega)]

theorem slotLast_succ (p : Params) {k : Nat} (hk : k < 9) :
    slotLast p (k + 1) = slotLast p k + slotLength p (k + 1) := by
  rw [slotLast, slotLast, slotOffset_succ p k hk]

theorem slotLast_le_frameTicks (p : Params) {k : Nat} (hk : k ≤ 9) : slotLast p k ≤ p.frameTicks := by
  rw [← slot_last_stop]
  rcases (by omega : k = 9 ∨ k < 9) with rfl | hlt
  · exact Nat.le_refl _
  · have := slotLast_lt_slotFirst p hlt (Nat.le_refl 9)
    unfold slotFirst at this
    omega

/-- From any tick of slot `k`, `TMR` ticks of it and the slots after it are left to the end of the frame, and then
the block is idle. -/
theorem idle_at_frame_end {s : State} {k n : Nat} (hk : k ≤ 9) (hp : s.phase = slotPhase k) (ht : 1 ≤ s.tmr)
    (hn : n + slotLast s.cfg.toParams k = s.tmr + s.cfg.frameTicks) (hr : s.noReset n) :
    (s.after n).phase = .idle := by
  have busy : s.phase ≠ .idle := hp ▸ slotPhase_ne_idle k
  induction hk using Nat.decreasingInduction generalizing s n with
  | self =>
    obtain rfl : n = s.tmr := by rw [slotLast, slot_last_stop] at hn; omega
    have ended := congrArg Owned.phase (owned_slot_end busy ht hr)
    rwa [endSlot_phase _ busy, State.owned_phase, State.owned_phase, hp] at ended
  | of_succ k hk ih =>
    have := slotLast_le_frameTicks s.cfg.toParams (Nat.le_of_lt hk)
    obtain ⟨m, rfl⟩ : ∃ m, n = s.tmr + m := ⟨n - s.tmr, by omega⟩
    have ended := owned_slot_end busy ht (noReset_mono hr (by omega))
    have phase : (s.after s.tmr).phase = slotPhase (k + 1) :=
      (congrArg Owned.phase ended).trans
        ((endSlot_phase _ busy).trans ((congrArg Phase.succ hp).trans (slotPhase_succ hk)))
    have tmr : (s.after s.tmr).tmr = slotLength s.cfg.toParams (k + 1) :=
      (congrArg Owned.tmr ended).trans (endSlot_tmr _ hk hp)
    have left := slotLast_succ s.cfg.toParams hk
    rw [State.after_add]
    exact ih phase (tmr ▸ slotLength_pos s.cfg (k + 1)) (by rw [State.after_cfg, tmr]; omega) (noReset_after hr)
      (phase ▸ slotPhase_ne_idle (k + 1))

/-- Every phase but `IDLE` is the phase of one of the ten slots (R15). -/
theorem exists_slotPhase {p : Phase} (h : p ≠ .idle) : ∃ k, k ≤ 9 ∧ p = slotPhase k := by
  rcases phase_cases p with rfl | rfl | rfl | ⟨i, hi, rfl⟩
  · exact absurd rfl h
  · exact ⟨0, by omega, rfl⟩
  · exact ⟨9, by omega, rfl⟩
  · exact ⟨i + 1, by omega, by rw [slotPhase, if_neg (by omega), if_pos (by omega), Nat.add_sub_cancel]⟩

/-- In a busy state of the invariant `TMR` is 1 or more, and at most the length of its slot (R25 (a), (b)). -/
theorem State.Inv.tmr_in_slot {s : State} (inv : s.Inv) {k : Nat} (hk : k ≤ 9) (hp : s.phase = slotPhase k) :
    1 ≤ s.tmr ∧ s.tmr ≤ slotLength s.cfg.toParams k := by
  have running : s.tmr ≠ 0 := fun h => slotPhase_ne_idle k (hp ▸ inv.timerZero.mp h)
  refine ⟨by omega, ?_⟩
  rcases (by omega : k = 0 ∨ k = 9 ∨ 1 ≤ k ∧ k ≤ 8) with rfl | rfl | ⟨h1, h8⟩
  · exact inv.timerEdge (.inl hp)
  · exact inv.timerEdge (.inr hp)
  · rw [slotPhase, if_neg (by omega), if_pos h8] at hp
    rw [slotLength, if_neg (by omega)]
    exact inv.timerData (k - 1) ⟨by omega, hp⟩

/-- A state of the invariant becomes idle by its own ticks, within the length of a frame (R54). -/
theorem State.Inv.idle_within_frame {s : State} (inv : s.Inv) (hr : s.noReset s.cfg.frameTicks) :
    ∃ n, n ≤ s.cfg.frameTicks ∧ (s.after n).phase = .idle := by
  by_cases hp : s.phase = .idle
  · exact ⟨0, Nat.zero_le _, hp⟩
  · obtain ⟨k, hk, slot⟩ := exists_slotPhase hp
    obtain ⟨running, inSlot⟩ := inv.tmr_in_slot hk slot
    have ends := slotLast_le_frameTicks s.cfg.toParams hk
    have begun : s.tmr ≤ slotLast s.cfg.toParams k := Nat.le_trans inSlot (Nat.le_add_left _ _)
    refine ⟨s.tmr + s.cfg.frameTicks - slotLast s.cfg.toParams k, by omega, ?_⟩
    exact idle_at_frame_end hk slot running (by omega) (noReset_mono hr (by omega))

/-- Settles O23: a busy block accepts nothing, and its step is that of a tick without command
(`step_present_busy`); it is idle again at the end of its frame (`State.Inv.idle_within_frame`). -/
theorem commandWhileBusyHasNoEffect : Obligations.CommandWhileBusyHasNoEffect :=
  ⟨fun _ w u hp => ⟨accepts_busy hp, step_present_busy hp w u⟩, fun _ inv hr => inv.idle_within_frame hr⟩

/-! ### A word without `cmd_valid` (R55) -/

theorem step_of_no_command {s : State} (h : s.command = none) : step s = .next s.quietTick := by
  simp only [step, h]

/-- A tick without command hands on nothing of `cmd_word`. -/
theorem quietTick_presentNothing (s : State) (w u : Command) :
    (s.presentNothing w).quietTick = (s.presentNothing u).quietTick := rfl

theorem step_presentNothing (s : State) (w u : Command) :
    step (s.presentNothing w) = step (s.presentNothing u) := by
  rw [step_of_no_command (s.presentNothing_command w), step_of_no_command (s.presentNothing_command u),
    quietTick_presentNothing s w u]

theorem step_eq_nextState (s : State) : step s = .next s.nextState := by
  rw [step_eq, State.nextState_eq]

/-- Settles O24: with `cmd_valid = 0` the tick is quiet whatever the word is, and an idle tick in which nothing is
accepted keeps the fields the block owns (`owned_after_idle`). -/
theorem wordWithoutValidIsIgnored : Obligations.WordWithoutValidIsIgnored :=
  ⟨step_presentNothing, fun s hr hp unaccepted =>
    ⟨s.nextState, step_eq_nextState s, owned_after_idle hr hp unaccepted⟩⟩

end Sys2Proof.Machine

/-! ## The opcode map (30_encoding.md R50) -/

namespace Sys2Proof

/-- Masking with 0x100 isolates `OP` (R49, R50): it is bit 8 of the word. -/
theorem and_opMask (w : Command) : w &&& 0x100#9 = if opField w then 0x100#9 else 0x000#9 :=
  BitVec.and_twoPow w 8

theorem decode_of_op_clear {w : Command} (h : opField w = false) : decode w = .configure := by
  simp [decode, h]

theorem decode_of_op_set {w : Command} (h : opField w = true) : decode w = .transmitByte (valueField w) := by
  simp [decode, h]

/-- Settles O1, by the two values of `OP`. -/
theorem everyCommandWordIsOneOfTwoOperations : Obligations.EveryCommandWordIsOneOfTwoOperations := by
  intro w
  rw [and_opMask]
  cases op : opField w
  · simp [decode_of_op_clear op]
  · simp [decode_of_op_set op]

end Sys2Proof

/-! ## The operation `CONFIGURE` (40_configure.md R64, R65) -/

namespace Sys2Proof.Machine

/-! ### `CONFIGURE` in an idle block (R64) -/

theorem exec_configure_idle {s : State} (hr : s.rst = false) (hp : s.phase = .idle) :
    exec .configure s = .next (s.commit (acceptConfigure s.owned)) := by
  rw [exec_configure, nextOwned_idle hr hp]

/-- A word with `OP = 0` on the port of an idle block is accepted as `CONFIGURE`, whatever its `VALUE` (R52, R53). -/
theorem accepts_of_op_clear {s : State} {w : Command} (hr : s.rst = false) (hp : s.phase = .idle)
    (hw : s.command = some w) (op : opField w = false) : s.accepts = some .configure := by
  rw [accepts_eq_of_ready hr hp, hw, Option.map_some, decode_of_op_clear op]

theorem step_of_op_clear {s : State} {w : Command} (hw : s.command = some w) (op : opField w = false) :
    step s = exec .configure s := by
  simp only [step, hw, decode_of_op_clear op]

/-- The outputs of a block that is idle and drives its line at HIGH (R22 to R24). -/
theorem outputs_at_rest {t : State} (idle : t.phase = .idle) (output : t.dir = false) (level : t.line = high) :
    t.lineOe = true ∧ t.lineOut = high ∧ t.dirQ = false ∧ t.wire = .driven high ∧ t.busy = false ∧
      (t.rst = false → t.cmdReady = true) :=
  ⟨t.lineOe_eq_true_iff.mpr output, level, output, level ▸ State.wire_of_output output,
    t.busy_eq_false_iff.mpr idle, fun hr => t.cmdReady_eq_true_iff.mpr ⟨idle, hr⟩⟩

/-- Settles O13: the next state is the commit of `acceptConfigure`, whose fields the laws of the state give, and its
outputs are those of a block at rest. -/
theorem configureWhenAccepted : Obligations.ConfigureWhenAccepted := by
  intro s hr hp
  have executed := exec_configure_idle hr hp
  have idle : (s.commit (acceptConfigure s.owned)).phase = .idle := hp
  have output : (s.commit (acceptConfigure s.owned)).dir = false := s.commit_dir _
  have level : (s.commit (acceptConfigure s.owned)).line = high := s.commit_line _
  obtain ⟨oe, out, dirQ, wire, free, ready⟩ := outputs_at_rest idle output level
  exact ⟨_, executed, output, level, idle, rfl, rfl, rfl, siblingsFollow_commit s _, oe, out, dirQ, wire, free, ready,
    fun w hw op => ⟨accepts_of_op_clear hr hp hw op, (step_of_op_clear hw op).trans executed⟩,
    fun _ busy => accepts_busy busy⟩

/-! ### A further `CONFIGURE` (R65) -/

/-- `CONFIGURE` has nothing to write where the line is already an output at HIGH. -/
theorem acceptConfigure_of_configured {o : Owned} (output : o.dir = false) (level : o.line = high) :
    acceptConfigure o = o := by
  cases o
  cases output
  cases level
  rfl

theorem acceptConfigure_idempotent (o : Owned) : acceptConfigure (acceptConfigure o) = acceptConfigure o :=
  acceptConfigure_of_configured rfl rfl

/-- `busy` and the line outputs are functions of the fields the block owns (R22 to R24). -/
theorem outputs_of_owned {s t : State} (h : s.owned = t.owned) :
    s.busy = t.busy ∧ s.lineOut = t.lineOut ∧ s.lineOe = t.lineOe ∧ s.dirQ = t.dirQ ∧ s.wire = t.wire :=
  ⟨congrArg (fun o : Owned => decide (o.phase ≠ .idle)) h, congrArg Owned.line h, congrArg (fun o : Owned => !o.dir) h,
    congrArg Owned.dir h, wire_of_owned h⟩

/-- However many `CONFIGURE`s are accepted in a row, the fields the block owns are as after the first. -/
theorem owned_after_configures {s : State} {n : Nat} (h : ∀ k, k ≤ n → (s.after k).accepts = some .configure) :
    (s.after (n + 1)).owned = (s.after 1).owned := by
  induction n with
  | zero => rfl
  | succ n ih =>
    have first : (s.after 1).owned = acceptConfigure s.owned := owned_after_configure (h 0 (Nat.zero_le _))
    calc (s.after (n + 1 + 1)).owned
        = acceptConfigure (s.after (n + 1)).owned := owned_after_configure (h (n + 1) (Nat.le_refl _))
      _ = acceptConfigure (s.after 1).owned := by rw [ih fun k hk => h k (Nat.le_succ_of_le hk)]
      _ = (s.after 1).owned := by rw [first, acceptConfigure_idempotent]

/-- A `CONFIGURE` accepted by a block that drives its line changes nothing: an idle line rests at HIGH (R25 (e)). -/
theorem State.Inv.owned_after_configure {s : State} (inv : s.Inv) (output : s.dir = false)
    (h : s.accepts = some .configure) : (s.after 1).owned = s.owned := by
  obtain ⟨-, idle, -⟩ := accepts_some h
  rw [Machine.owned_after_configure h]
  exact acceptConfigure_of_configured output (inv.lineIdle idle output)

/-- Settles O14: `acceptConfigure` keeps the fields of a line that is an output at HIGH, which it is after the first
`CONFIGURE` and, by the invariant, in every idle state with `DIR = 0`. -/
theorem configureIsIdempotent : Obligations.ConfigureIsIdempotent := by
  refine ⟨fun s hr hp output level => ?_, fun _ _ h => owned_after_configures h,
    fun _ inv output h => inv.owned_after_configure output h⟩
  have kept : (s.commit (acceptConfigure s.owned)).owned = s.owned :=
    (s.owned_commit _).trans (acceptConfigure_of_configured output level)
  exact ⟨_, exec_configure_idle hr hp, kept, outputs_of_owned kept⟩

end Sys2Proof.Machine

/-! ## The operation `TRANSMIT_BYTE` (41_transmit_byte.md R69 to R74, R77, R84) -/

namespace Sys2Proof.Machine

/-! ### The slot timeline (R77) -/

@[simp] theorem slotFirst_zero (p : Params) : slotFirst p 0 = 1 := by simp [slotFirst, slotOffset]

@[simp] theorem slotLast_zero (p : Params) : slotLast p 0 = p.edgeTicks := by
  simp [slotLast, slotOffset, slotLength]

/-- Each slot begins in the tick after the last of the slot before it. -/
theorem slotFirst_succ (p : Params) {k : Nat} (hk : k < 9) : slotFirst p (k + 1) = slotLast p k + 1 := by
  rw [slotFirst, slotLast, slotOffset_succ p k hk]

/-- The Start slot and `k` data slots end `E + k * DP` ticks after the acceptance. -/
theorem slotLast_data (p : Params) {k : Nat} (hk : k ≤ 8) : slotLast p k = p.edgeTicks + k * p.dataPeriod := by
  induction k with
  | zero => simp
  | succ k ih =>
    have length : slotLength p (k + 1) = p.dataPeriod := if_neg (by omega)
    rw [slotLast_succ p (by omega), ih (by omega), length, Nat.succ_mul, Nat.add_assoc]

/-- Settles O43: `frame_tick` gives all the fields the block owns in each tick of each slot; the closed forms are
those of the slots' first and last ticks above. -/
theorem slotTimeline : Obligations.SlotTimeline := by
  intro s v h hr
  refine ⟨fun k hk m hm => ?_, slotFirst_zero _, slotLast_zero _, fun k h1 h9 => ?_,
    fun k _ h8 => slotLast_data _ h8, slot_last_stop _⟩
  · have tick := frame_tick h hr (Nat.le_of_lt_succ hk) hm
    exact ⟨congrArg Owned.phase tick, congrArg Owned.tmr tick, congrArg Owned.line tick, congrArg Owned.shreg tick,
      congrArg Owned.dir tick⟩
  · obtain ⟨j, rfl⟩ : ∃ j, k = j + 1 := ⟨k - 1, by omega⟩
    exact slotFirst_succ _ (by omega)

/-! ### The ticks of a slot and its end (R70 to R74) -/

/-- A busy tick, whatever stands on the command port, leads to one state, in which the block's fields are what the
sequencer makes of them (R54, R83). -/
theorem busy_tick {s : State} {o : Owned} (hr : s.rst = false) (hp : s.phase ≠ .idle)
    (sequenced : s.owned.sequence s.cfg = o) :
    ∃ t, step s = .next t ∧ (∀ i, exec i s = .next t) ∧ t.owned = o ∧ s.siblingsFollow t :=
  ⟨_, step_busy hr hp, exec_busy hr hp, (s.owned_commit _).trans sequenced, siblingsFollow_commit s _⟩

/-- Settles O17: one tick is `Owned.hold`; of a whole slot `owned_held` gives the ticks and `owned_slot_end` the
end. -/
theorem slotIsHeldForItsTicks : Obligations.SlotIsHeldForItsTicks := by
  refine ⟨fun s hr hp running => ?_, fun s n hp hn h1 hr => ⟨fun m hm => ?_, ?_⟩⟩
  · obtain ⟨t, stepped, executed, owned, siblings⟩ := busy_tick hr hp (sequence_hold s.cfg running)
    exact ⟨t, stepped, executed, congrArg Owned.tmr owned, congrArg Owned.phase owned, congrArg Owned.shreg owned,
      congrArg Owned.line owned, congrArg Owned.dir owned, siblings⟩
  · subst hn
    have held := owned_held hp hm (noReset_mono hr (Nat.le_of_lt hm))
    exact ⟨congrArg Owned.phase held, congrArg Owned.tmr held, congrArg Owned.line held, congrArg Owned.dir held,
      congrArg Owned.shreg held⟩
  · subst hn
    exact (congrArg Owned.phase (owned_slot_end hp h1 hr)).trans (endSlot_phase _ hp)

/-- Bit 0 read off the isolated bit (R91). -/
theorem bit_zero_eq_high_iff (v : Byte) : v.getLsbD 0 = high ↔ v &&& 0x01#8 = 0x01#8 := by
  have isolated : v &&& 0x01#8 = if v.getLsbD 0 then 0x01#8 else 0x00#8 := BitVec.and_twoPow v 0
  rw [isolated]
  cases v.getLsbD 0 <;> decide

/-- Settles O18: the tick is `endSlot_start`. -/
theorem startSlotEnds : Obligations.StartSlotEnds := by
  intro s hr hp ended
  have busy : s.phase ≠ .idle := by simp [hp]
  have sequenced := (sequence_end s.cfg ended).trans (endSlot_start (o := s.owned) s.cfg hp)
  obtain ⟨t, stepped, executed, owned, siblings⟩ := busy_tick hr busy sequenced
  have line : t.line = s.shreg.getLsbD 0 := congrArg Owned.line owned
  exact ⟨t, stepped, executed, line, line ▸ bit_zero_eq_high_iff s.shreg, congrArg Owned.phase owned,
    congrArg Owned.tmr owned, congrArg Owned.shreg owned, congrArg Owned.dir owned, siblings⟩

/-- The shift fills bit 7 with 0 (R92). -/
theorem shiftRightOne_bit_seven (v : Byte) : (shiftRightOne v).getLsbD 7 = false := by
  rw [shiftRightOne_bit]
  exact BitVec.getLsbD_of_ge v 8 (Nat.le_refl 8)

/-- Settles O19: the tick is `endSlot_data`, and bit 1 before the shift is bit 0 after it (`shiftRightOne_bit`). -/
theorem dataSlotEnds : Obligations.DataSlotEnds := by
  intro s i hi hr hp ended
  have busy : s.phase ≠ .idle := hp ▸ (data_ne i).1
  have sequenced := (sequence_end s.cfg ended).trans (endSlot_data (o := s.owned) s.cfg hi hp)
  obtain ⟨t, stepped, executed, owned, siblings⟩ := busy_tick hr busy sequenced
  have line : t.line = s.shreg.getLsbD 1 := congrArg Owned.line owned
  have shreg : t.shreg = shiftRightOne s.shreg := congrArg Owned.shreg owned
  exact ⟨t, stepped, executed, line, shreg, shreg ▸ shiftRightOne_bit_seven s.shreg, congrArg Owned.phase owned,
    congrArg Owned.tmr owned, by rw [line, shreg, shiftRightOne_bit], congrArg Owned.dir owned, siblings⟩

/-- Nothing is left of one bit after a shift (R92). -/
theorem shiftRightOne_of_lt_two {v : Byte} (h : v.toNat < 2) : shiftRightOne v = 0x00#8 := by
  apply BitVec.eq_of_toNat_eq
  rw [shiftRightOne, BitVec.toNat_ushiftRight, Nat.shiftRight_eq_div_pow]
  exact Nat.div_eq_of_lt h

/-- Settles O20: the tick is `endSlot_data7`; in `DATA_7` the invariant leaves one bit in `SHREG` (R25 (d)). -/
theorem lastDataSlotEnds : Obligations.LastDataSlotEnds := by
  intro s hr hp ended
  have busy : s.phase ≠ .idle := by simp [hp]
  have sequenced := (sequence_end s.cfg ended).trans (endSlot_data7 (o := s.owned) s.cfg hp)
  obtain ⟨t, stepped, executed, owned, siblings⟩ := busy_tick hr busy sequenced
  have shreg : t.shreg = shiftRightOne s.shreg := congrArg Owned.shreg owned
  exact ⟨t, stepped, executed, congrArg Owned.line owned, shreg,
    fun inv => shreg.trans (shiftRightOne_of_lt_two (inv.shregData 7 ⟨by decide, hp⟩)), congrArg Owned.phase owned,
    congrArg Owned.tmr owned, congrArg Owned.dir owned, siblings⟩

/-- Settles O21: the tick is `endSlot_stop`, and in `STOP` the invariant has the line at HIGH (R25 (c)). -/
theorem stopSlotEnds : Obligations.StopSlotEnds := by
  intro s hr hp ended
  have busy : s.phase ≠ .idle := by simp [hp]
  have sequenced := (sequence_end s.cfg ended).trans (endSlot_stop (o := s.owned) s.cfg hp)
  obtain ⟨t, stepped, executed, owned, siblings⟩ := busy_tick hr busy sequenced
  have idle : t.phase = .idle := congrArg Owned.phase owned
  have line : t.line = s.line := congrArg Owned.line owned
  exact ⟨accepts_busy busy, t, stepped, executed, idle, congrArg Owned.tmr owned, line,
    fun inv => line.trans (inv.lineStop hp), congrArg Owned.shreg owned, congrArg Owned.dir owned, siblings,
    fun released => t.cmdReady_eq_true_iff.mpr ⟨idle, released⟩⟩

/-! ### The state after a frame (R84) -/

/-- Frames of one value begun with the same configuration and `DIR` agree in every field the block owns, from the
tick after the acceptance to the tick after the frame. -/
theorem owned_frames_agree {s s' : State} {v : Byte} (h : s.accepts = some (.transmitByte v))
    (h' : s'.accepts = some (.transmitByte v)) (hc : s'.cfg = s.cfg) (hd : s'.dir = s.dir)
    (hr : s.noReset (s.cfg.frameTicks + 1)) (hr' : s'.noReset (s'.cfg.frameTicks + 1)) {t : Nat} (h1 : 1 ≤ t)
    (h2 : t ≤ s.cfg.frameTicks + 1) : (s'.after t).owned = (s.after t).owned := by
  rcases Nat.le_succ_iff.mp h2 with inFrame | rfl
  · obtain ⟨k, m, hk, hm, rfl, slot⟩ := owned_in_some_slot h hr h1 inFrame
    have slot' := frame_tick h' hr' hk (hc ▸ hm)
    rwa [hc, hd, ← slot] at slot'
  · have done' := frame_end h' hr'
    rwa [hc, hd, ← frame_end h hr] at done'

/-- After a `CONFIGURE` the block is idle and drives its line at HIGH, `TMR` and `SHREG` as before (R64). -/
theorem owned_after_configure_fields {s : State} (h : s.accepts = some .configure) :
    (s.after 1).owned = { phase := .idle, tmr := s.tmr, shreg := s.shreg, dir := false, line := high } := by
  obtain ⟨-, idle, -⟩ := accepts_some h
  rw [owned_after_configure h, ← idle]
  rfl

/-- Settles O46: `frame_end` gives all the fields the block owns after the frame, `owned_after_configure_fields`
those after a `CONFIGURE`, and frames of one value agree in them (`owned_frames_agree`). -/
theorem stateAfterAFrame : Obligations.StateAfterAFrame := by
  intro s v h hr
  have done := frame_end h hr
  have idle : (s.after (s.cfg.frameTicks + 1)).phase = .idle := congrArg Owned.phase done
  refine ⟨done, (State.busy_eq_false_iff _).mpr idle,
    fun released => (State.cmdReady_eq_true_iff _).mpr ⟨idle, released⟩,
    fun c hc tmr output => ?_, fun s' cfg dir h' hr' t h1 h2 => ?_⟩
  · have after : (s.after (s.cfg.frameTicks + 1)).owned = { (c.after 1).owned with shreg := 0x00#8 } := by
      rw [done, owned_after_configure_fields hc, output, tmr]
    exact ⟨congrArg Owned.phase after, congrArg Owned.tmr after, congrArg Owned.dir after, congrArg Owned.line after⟩
  · exact wire_of_owned (owned_frames_agree h h' cfg dir hr (cfg ▸ hr') h1 h2)

/-! ### `TRANSMIT_BYTE` in an idle block (R69) -/

theorem exec_transmitByte_idle {s : State} (hr : s.rst = false) (hp : s.phase = .idle) (v : Byte) :
    exec (.transmitByte v) s = .next (s.commit (acceptTransmitByte s.cfg v s.owned)) := by
  rw [exec_transmitByte, nextOwned_idle hr hp]

/-- A word with `OP = 1` on the port of an idle block is accepted as `TRANSMIT_BYTE` of its `VALUE` (R51, R53). -/
theorem accepts_of_op_set {s : State} {w : Command} (hr : s.rst = false) (hp : s.phase = .idle)
    (hw : s.command = some w) (op : opField w = true) : s.accepts = some (.transmitByte (valueField w)) := by
  rw [accepts_eq_of_ready hr hp, hw, Option.map_some, decode_of_op_set op]

theorem step_of_op_set {s : State} {w : Command} (hw : s.command = some w) (op : opField w = true) :
    step s = exec (.transmitByte (valueField w)) s := by
  simp only [step, hw, decode_of_op_set op]

/-- Settles O16: the next state is the commit of `acceptTransmitByte`, whose fields the laws of the state give. -/
theorem transmitByteWhenAccepted : Obligations.TransmitByteWhenAccepted := by
  intro s v hr hp
  have executed := exec_transmitByte_idle hr hp v
  have line : (s.commit (acceptTransmitByte s.cfg v s.owned)).line = low := s.commit_line _
  have dir : (s.commit (acceptTransmitByte s.cfg v s.owned)).dir = s.dir := s.commit_dir _
  refine ⟨_, executed, rfl, line, rfl, acceptTransmitByte_tmr s.cfg v s.owned, dir, rfl, siblingsFollow_commit s _,
    ?_, fun w hw op value => ?_⟩
  · rw [State.wire, line, dir]
  · subst value
    exact ⟨accepts_of_op_set hr hp hw op, (step_of_op_set hw op).trans executed⟩

end Sys2Proof.Machine

/-! ## Bit isolation and the shift (42_primitives.md R91, R92) -/

namespace Sys2Proof.Machine

/-- The masked value is 0x01 or 0x00, as bit 0 says (R91). -/
theorem isolate_eq (v : Byte) : isolate v = if v.getLsbD 0 then 0x01#8 else 0x00#8 := BitVec.and_twoPow v 0

theorem isolate_eq_zero_or_one (v : Byte) : isolate v = 0x00#8 ∨ isolate v = 0x01#8 := by
  rw [isolate_eq]
  cases v.getLsbD 0
  · exact .inl rfl
  · exact .inr rfl

/-- Shift and test: bit `i` is brought to place 0 and isolated there (R91). -/
theorem isolate_shift_eq_one_iff (v : Byte) (i : Nat) : isolate (v >>> i) = 0x01#8 ↔ v.getLsbD i = true := by
  have moved : (v >>> i).getLsbD 0 = v.getLsbD i := BitVec.getLsbD_ushiftRight v i 0
  rw [isolate, ← bit_zero_eq_high_iff, moved]

/-- A mask of one bit of a byte is not 0. -/
theorem singleBit_ne_zero : ∀ i, i < 8 → 1#8 <<< i ≠ 0x00#8 := by decide

/-- Masking in place: a mask of the single bit `i` leaves something exactly when bit `i` is 1 (R91). -/
theorem and_singleBit_ne_zero_iff (v : Byte) {i : Nat} (hi : i < 8) :
    v &&& (1#8 <<< i) ≠ 0x00#8 ↔ v.getLsbD i = true := by
  have masked : v &&& (1#8 <<< i) = if v.getLsbD i then 1#8 <<< i else 0x00#8 := BitVec.and_twoPow v i
  rw [masked]
  cases v.getLsbD i
  · simp
  · simp [singleBit_ne_zero i hi]

/-- `n` shifts by one place are one shift by `n` places (R92). -/
theorem shiftRightOne_iterate (v : Byte) (n : Nat) : shiftRightOne^[n] v = v >>> n := by
  induction n with
  | zero => exact v.ushiftRight_zero.symm
  | succ n ih => rw [Function.iterate_succ_apply', ih, shiftRightOne_shift]

/-- Settles O40: the two ways to test bit `i` both say `v.getLsbD i`, and eight shifts are the shift by 8. -/
theorem shiftAndMask : Obligations.ShiftAndMask := fun v =>
  ⟨isolate_eq_zero_or_one v, levelOf_isolate v,
    fun i hi => ⟨isolate_shift_eq_one_iff v i,
      (isolate_shift_eq_one_iff v i).trans (and_singleBit_ne_zero_iff v hi).symm⟩,
    fun i _ => shiftRightOne_bit v i, shiftRightOne_bit_seven v, (shiftRightOne_iterate v 8).trans (shift_eight v)⟩

end Sys2Proof.Machine

/-! ## The waveform and the reference receiver (43_waveform_and_receiver.md R97 to R101, R105) -/

namespace Sys2Proof.Machine

/-! ### The levels of the slots and the frame word (R97) -/

theorem slotLevel_data (v : Byte) {k : Nat} (h1 : 1 ≤ k) (h8 : k ≤ 8) : slotLevel v k = v.getLsbD (k - 1) := by
  rw [slotLevel, if_neg (by omega), if_pos h8]

/-- Of the constant 0x200 in `FrameWord` only bit 9 is set. -/
theorem stopMask_bit (k : Nat) : (0x200#10).getLsbD k = decide (k = 9) :=
  (BitVec.getLsbD_twoPow (w := 10) 9 k).trans (by simp [eq_comm])

/-- Bit `k` of `v << 1` in 10 bits: 0 at the place of the Start slot, then the bits of `v`. -/
theorem shiftedByte_bit (v : Byte) {k : Nat} (hk : k < 10) :
    (v.setWidth 10 <<< 1).getLsbD k = (decide (1 ≤ k) && v.getLsbD (k - 1)) := by
  by_cases h0 : k = 0
  · simp [h0]
  · simp [hk, h0, Nat.one_le_iff_ne_zero]

theorem slotLevel_eq_frameWord_bit (v : Byte) {k : Nat} (hk : k < 10) :
    slotLevel v k = (frameWord v).getLsbD k := by
  rw [frameWord, BitVec.getLsbD_or, stopMask_bit, shiftedByte_bit v hk]
  rcases (by omega : k = 0 ∨ k = 9 ∨ 1 ≤ k ∧ k ≤ 8) with rfl | rfl | ⟨h1, h8⟩
  · rfl
  · rfl
  · have notStop : k ≠ 9 := by omega
    simp [slotLevel_data v h1 h8, notStop, h1]

/-- Settles O41: the levels are those of `slotLevel`'s three branches, and bit `k` of the frame word is the level of
slot `k` (`slotLevel_eq_frameWord_bit`). -/
theorem slotLevels : Obligations.SlotLevels := fun v =>
  ⟨rfl, fun _ h1 h8 => slotLevel_data v h1 h8, rfl, fun _ hk => slotLevel_eq_frameWord_bit v hk⟩

/-! ### The wire during a frame (R98) -/

theorem State.wire_eq_driven_iff (s : State) (l : Level) : s.wire = .driven l ↔ s.dir = false ∧ s.line = l := by
  cases h : s.dir <;> simp [State.wire, h]

theorem slotLast_nine (p : Params) : slotLast p 9 = p.frameTicks := slot_last_stop p

/-- The fields the block owns in any tick of slot `k`, with no premise on resets from that tick on (R77). -/
theorem owned_in_slot_of_transmit {s : State} {v : Byte} {k t : Nat} (h : s.accepts = some (.transmitByte v))
    (hr : s.noReset t) (hk : k ≤ 9) (first : slotFirst s.cfg.toParams k ≤ t)
    (last : t ≤ slotLast s.cfg.toParams k) :
    (s.after t).owned = slotOwned s.cfg v s.dir k (t - slotFirst s.cfg.toParams k) := by
  obtain ⟨m, rfl⟩ := Nat.exists_eq_add_of_le first
  have fromStart : slotFirst s.cfg.toParams k + m = 1 + (slotOffset s.cfg.toParams k + m) := by
    unfold slotFirst; omega
  have inSlot : m < slotLength s.cfg.toParams k := by unfold slotFirst slotLast at last; omega
  rw [fromStart] at hr
  have tick := owned_in_frame (s := s.after 1) (v := v) (d := s.dir) (k := k) (m := m)
    (by rw [State.after_cfg]; exact owned_after_transmit h) hk (by rwa [State.after_cfg])
    (by rw [State.after_cfg]; exact noReset_after hr)
  rw [Nat.add_sub_cancel_left]
  rwa [State.after_cfg, ← State.after_add, ← fromStart] at tick

/-- In a frame begun with `DIR = 0` the wire is at the level of the slot (R98). -/
theorem wireAt_in_slot {s : State} {v : Byte} {k t : Nat} (h : s.accepts = some (.transmitByte v))
    (output : s.dir = false) (hr : s.noReset t) (hk : k ≤ 9) (first : slotFirst s.cfg.toParams k ≤ t)
    (last : t ≤ slotLast s.cfg.toParams k) : s.wireAt t = .driven (slotLevel v k) := by
  have slot := owned_in_slot_of_transmit h hr hk first last
  have dir : (s.after t).dir = s.dir := congrArg Owned.dir slot
  exact (State.wire_eq_driven_iff _ _).mpr ⟨dir.trans output, congrArg Owned.line slot⟩

/-! ### The line at rest (R99, R100) -/

/-- The block is idle and drives its line at HIGH: the state after a frame, and after a `CONFIGURE`. -/
def State.atRest (s : State) : Prop := s.phase = .idle ∧ s.dir = false ∧ s.line = high

theorem State.atRest.wire {s : State} (rest : s.atRest) : s.wire = .driven high :=
  (s.wire_eq_driven_iff high).mpr rest.2

theorem atRest_of_owned {s : State} {n : Nat} {v : Byte}
    (h : s.owned = { phase := .idle, tmr := n, shreg := v, dir := false, line := high }) : s.atRest :=
  ⟨congrArg Owned.phase h, congrArg Owned.dir h, congrArg Owned.line h⟩

theorem atRest_after_configure {s : State} (h : s.accepts = some .configure) : (s.after 1).atRest :=
  atRest_of_owned (owned_after_configure_fields h)

theorem atRest_after_frame {s : State} {v : Byte} (h : s.accepts = some (.transmitByte v))
    (output : s.dir = false) (hr : s.noReset (s.cfg.frameTicks + 1)) :
    (s.after (s.cfg.frameTicks + 1)).atRest :=
  atRest_of_owned ((frame_end h hr).trans (by rw [output]))

/-- Nothing but a reset or a `TRANSMIT_BYTE` disturbs a line at rest: a `CONFIGURE` writes what is there, and a tick
without command writes nothing. -/
theorem State.atRest.next {s : State} (rest : s.atRest) (hr : s.rst = false)
    (quiet : ∀ v, s.accepts ≠ some (.transmitByte v)) : (s.after 1).atRest := by
  cases accepted : s.accepts with
  | none =>
    have kept := owned_after_idle hr rest.1 accepted
    exact ⟨(congrArg Owned.phase kept).trans rest.1, (congrArg Owned.dir kept).trans rest.2.1,
      (congrArg Owned.line kept).trans rest.2.2⟩
  | some i =>
    cases i with
    | configure => exact atRest_after_configure accepted
    | transmitByte v => exact absurd accepted (quiet v)

/-- A line at rest in tick `a` rests up to the tick in which the next `TRANSMIT_BYTE` is accepted. -/
theorem atRest_until {s : State} {a n : Nat} (rest : (s.after a).atRest) (hr : s.noReset n)
    (quiet : ∀ t, a ≤ t → t < n → s.noFrameBegins t) {t : Nat} (ha : a ≤ t) (hn : t ≤ n) :
    (s.after t).atRest := by
  induction t, ha using Nat.le_induction with
  | base => exact rest
  | succ t ha ih => exact (ih (by omega)).next (noReset_rst hr hn) (quiet t ha hn)

/-- From the tick after a frame the wire rests at HIGH (R100). -/
theorem wireAt_high_after_frame {s : State} {v : Byte} {n t : Nat} (h : s.accepts = some (.transmitByte v))
    (output : s.dir = false) (hr : s.noReset n) (quiet : ∀ t, 0 < t → t < n → s.noFrameBegins t)
    (ended : s.cfg.frameTicks + 1 ≤ t) (hn : t ≤ n) : s.wireAt t = .driven high := by
  have rest := atRest_after_frame h output (noReset_mono hr (Nat.le_trans ended hn))
  exact (atRest_until rest hr (fun t ha => quiet t (by omega)) ended hn).wire

/-- From the tick after a `CONFIGURE` the wire rests at HIGH (R100). -/
theorem wireAt_high_after_configure {s : State} {n t : Nat} (h : s.accepts = some .configure) (hr : s.noReset n)
    (quiet : ∀ t, t < n → s.noFrameBegins t) (h1 : 1 ≤ t) (hn : t ≤ n) : s.wireAt t = .driven high :=
  (atRest_until (atRest_after_configure h) hr (fun t _ => quiet t) h1 hn).wire

/-- From the first tick of the Stop slot the wire is HIGH (R99 (a)): in the slot by its level, after it at rest. -/
theorem wireAt_high_from_stop {s : State} {v : Byte} {n t : Nat} (h : s.accepts = some (.transmitByte v))
    (output : s.dir = false) (hr : s.noReset n) (quiet : ∀ t, 0 < t → t < n → s.noFrameBegins t)
    (stop : slotFirst s.cfg.toParams 9 ≤ t) (hn : t ≤ n) : s.wireAt t = .driven high := by
  rcases Nat.lt_or_ge s.cfg.frameTicks t with ended | inFrame
  · exact wireAt_high_after_frame h output hr quiet ended hn
  · have last : t ≤ slotLast s.cfg.toParams 9 := inFrame.trans_eq (slotLast_nine _).symm
    exact wireAt_in_slot h output (noReset_mono hr hn) (Nat.le_refl 9) stop last

/-! ### Ticks and slots (R101) -/

/-- Every tick of a frame lies between the first and the last tick of a slot. -/
theorem exists_slot_of_tick (p : Params) {t : Nat} (h1 : 1 ≤ t) (h2 : t ≤ p.frameTicks) :
    ∃ k, k ≤ 9 ∧ slotFirst p k ≤ t ∧ t ≤ slotLast p k := by
  obtain ⟨k, m, hk, hm, rfl⟩ := tick_in_slot p h1 h2
  refine ⟨k, hk, Nat.le_add_right _ _, ?_⟩
  unfold slotFirst slotLast
  omega

/-- No command is accepted in a tick of a frame: the block is in a slot then, whatever is reset
later (R54). -/
theorem accepts_none_in_frame {s : State} {v : Byte} {t : Nat} (h : s.accepts = some (.transmitByte v))
    (hr : s.noReset t) (h1 : 1 ≤ t) (h2 : t ≤ s.cfg.frameTicks) : (s.after t).accepts = none := by
  obtain ⟨k, hk, first, last⟩ := exists_slot_of_tick s.cfg.toParams h1 h2
  have phase : (s.after t).phase = slotPhase k := congrArg Owned.phase (owned_in_slot_of_transmit h hr hk first last)
  exact accepts_busy (phase ▸ slotPhase_ne_idle k)

theorem phase_eq_slotPhase_iff {s : State} {v : Byte} (h : s.accepts = some (.transmitByte v))
    (hr : s.noReset (s.cfg.frameTicks + 1)) {k t : Nat} (hk : k ≤ 9) (ht : t ≤ s.cfg.frameTicks + 1) :
    (s.after t).phase = slotPhase k ↔ slotFirst s.cfg.toParams k ≤ t ∧ t ≤ slotLast s.cfg.toParams k := by
  have phase {j : Nat} (hj : j ≤ 9) (first : slotFirst s.cfg.toParams j ≤ t)
      (last : t ≤ slotLast s.cfg.toParams j) : (s.after t).phase = slotPhase j :=
    congrArg Owned.phase (owned_in_slot_of_transmit h (noReset_mono hr ht) hj first last)
  refine ⟨fun there => ?_, fun ⟨first, last⟩ => phase hk first last⟩
  have busy : s.busyAt t = true := (State.busy_eq_true_iff _).mpr (there ▸ slotPhase_ne_idle k)
  obtain ⟨h1, h2⟩ := (busyAt_transmit_iff h hr ht).mp busy
  obtain ⟨j, hj, first, last⟩ := exists_slot_of_tick s.cfg.toParams h1 h2
  obtain rfl : k = j := slotPhase_injective (by omega) (by omega) (there.symm.trans (phase hj first last))
  exact ⟨first, last⟩

theorem slotLast_succ_sub_slotFirst (p : Params) (k : Nat) : slotLast p k + 1 - slotFirst p k = slotLength p k := by
  unfold slotLast slotFirst
  omega

theorem slotLength_data (p : Params) {k : Nat} (h1 : 1 ≤ k) (h8 : k ≤ 8) : slotLength p k = p.dataPeriod :=
  if_neg (by omega)

theorem slotLength_of_calibrated {p : Params} (calibrated : p.calibrated) (k : Nat) :
    slotLength p k = p.edgeTicks := by
  unfold slotLength
  split
  · rfl
  · exact calibrated

/-- Settles O45: the ticks of a slot are those of its phase (`phase_eq_slotPhase_iff`), and their number is its
length, for every configuration. -/
theorem slotsLastExactly : Obligations.SlotsLastExactly := by
  refine ⟨fun s v h hr k hk t ht => phase_eq_slotPhase_iff h hr (Nat.le_of_lt_succ hk) ht, fun c => ?_⟩
  refine ⟨fun k _ => slotLast_succ_sub_slotFirst _ k, rfl, rfl, fun k h1 h8 => slotLength_data _ h1 h8, ?_,
    fun calibrated k _ => slotLength_of_calibrated calibrated k⟩
  rw [slotLast_nine, slotFirst_zero, Nat.add_sub_cancel]

/-- Settles O44: in a slot `wireAt_in_slot`, in the tick after the frame a line at rest. -/
theorem frameShapeOnTheWire : Obligations.FrameShapeOnTheWire := by
  intro s v h output hr
  refine ⟨fun k hk t first last => ?_, (atRest_after_frame h output hr).wire⟩
  have inFrame := slotLast_le_frameTicks s.cfg.toParams hk
  exact wireAt_in_slot h output (noReset_mono hr (by omega)) hk first last

/-- Settles O50: the second `TRANSMIT_BYTE` is not accepted during the first one's frame (`accepts_none_in_frame`);
the wire is HIGH from the Stop slot, and from the `CONFIGURE`, by the lemmas on the line at rest. -/
theorem idleBetweenFramesAndBeforeTheFirst : Obligations.IdleBetweenFramesAndBeforeTheFirst := by
  refine ⟨fun s v u n h output hn hr accepted quiet => ⟨?_, fun t stop ht => ?_⟩,
    fun s v n h _ hr _ quiet t h1 ht => wireAt_high_after_configure h hr quiet h1 ht⟩
  · by_contra early
    have refused := accepts_none_in_frame h hr hn (by omega)
    simp [refused] at accepted
  · exact wireAt_high_from_stop h output hr quiet stop ht

/-- In a state of the invariant a wire driven LOW is in the Start slot or in a data slot (R25 (c), (e)). -/
theorem State.Inv.slot_of_wire_low {s : State} (inv : s.Inv) (lowered : s.wire = .driven low) :
    s.phase = .start ∨ ∃ i, s.inData i := by
  obtain ⟨output, level⟩ := (s.wire_eq_driven_iff low).mp lowered
  rcases phase_cases s.phase with idle | start | stop | ⟨i, hi, data⟩
  · exact absurd (level.symm.trans (inv.lineIdle idle output)) (by decide)
  · exact .inl start
  · exact absurd (level.symm.trans (inv.lineStop stop)) (by decide)
  · exact .inr ⟨i, hi, data⟩

/-- Settles O51: the line rests at HIGH after a frame and after a `CONFIGURE`, and the invariant has it HIGH in
`STOP` and, where it is driven, in `IDLE`. -/
theorem lineRestsAtHigh : Obligations.LineRestsAtHigh :=
  ⟨fun _ _ _ h output hr quiet _ ended hn => wireAt_high_after_frame h output hr quiet ended hn,
    fun _ _ h hr quiet _ h1 hn => wireAt_high_after_configure h hr quiet h1 hn,
    fun _ inv lowered => inv.slot_of_wire_low lowered⟩

/-! ### The reference receiver (R105) -/

/-- The reference receiver samples slot `k` at the level of slot `k`: its sampling tick lies inside the slot. -/
theorem levelAt_sampleTick {s : State} {v : Byte} (h : s.accepts = some (.transmitByte v))
    (output : s.dir = false) (hr : s.noReset (s.cfg.frameTicks + 1)) {k : Nat} (hk : k ≤ 9) :
    s.levelAt (sampleTick s.cfg.toParams 1 k) = slotLevel v k := by
  obtain ⟨first, last⟩ := sampleTick_in_slot s.cfg k
  have inFrame := slotLast_le_frameTicks s.cfg.toParams hk
  exact levelAt_of_wireAt (wireAt_in_slot h output (noReset_mono hr (by omega)) hk first last)

theorem receive_frame {s : State} {v : Byte} (h : s.accepts = some (.transmitByte v)) (output : s.dir = false)
    (hr : s.noReset (s.cfg.frameTicks + 1)) : receive s.cfg.toParams s.levelAt 1 = v.toNat :=
  (assembleByte_congr fun _ _ h8 => levelAt_sampleTick h output hr (Nat.le_succ_of_le h8)).trans
    (assembleByte_slotLevel v)

/-- A frame begun with the wire HIGH begins with a falling edge: its first tick is the Start slot's. -/
theorem fallingEdge_of_transmit {s : State} {v : Byte} (h : s.accepts = some (.transmitByte v))
    (wire : s.wire = .driven high) : s.fallingEdge 1 := by
  have begun := owned_after_transmit h
  have dir : (s.after 1).dir = s.dir := congrArg Owned.dir begun
  obtain ⟨output, -⟩ := (s.wire_eq_driven_iff high).mp wire
  exact ⟨Nat.le_refl 1, wire, (State.wire_eq_driven_iff _ _).mpr ⟨dir.trans output, congrArg Owned.line begun⟩⟩

/-- Settles O52: the receiver samples every slot at its level (`levelAt_sampleTick`): the Start slot LOW, the Stop
slot HIGH, and the data slots the bits of the byte (`receive_frame`). -/
theorem referenceReceiverRecoversTheByte : Obligations.ReferenceReceiverRecoversTheByte := fun _ _ h output wire hr =>
  ⟨fallingEdge_of_transmit h wire,
    ⟨levelAt_sampleTick h output hr (Nat.zero_le 9), levelAt_sampleTick h output hr (Nat.le_refl 9)⟩,
    receive_frame h output hr⟩

end Sys2Proof.Machine

/-! ## Exceptions (60_exceptions.md R108) -/

namespace Sys2Proof.Machine

/-- Every operation can be executed in every state: it answers the end of a tick (R51, R54). -/
theorem exec_answers_next (i : Instr) (s : State) : ∃ t, exec i s = .next t := by
  cases i with
  | configure => exact ⟨_, exec_configure s⟩
  | transmitByte v => exact ⟨_, exec_transmitByte v s⟩

theorem not_nonempty_fault : ¬Nonempty Fault := fun ⟨reason⟩ => nomatch reason

/-- Settles O7: an operation answers next by its own equation, a step by `step_eq_nextState`, and `Fault` has no
constructor. -/
theorem nothingFaultsOrIsRefused : Obligations.NothingFaultsOrIsRefused :=
  ⟨exec_answers_next, fun s => ⟨s.nextState, step_eq_nextState s⟩, not_nonempty_fault⟩

end Sys2Proof.Machine

/-! ## Reset, and a frame sent before `CONFIGURE` (70_reset_and_hazards.md R125, R133) -/

namespace Sys2Proof.Machine

/-! ### The reset action (R125) -/

theorem nextState_owned_reset {s : State} (h : s.rst = true) :
    s.nextState.owned = .afterReset (Config.freeLineAfterReset s.ticks) := by
  rw [State.nextState_owned, nextOwned_reset h]

theorem cmdReady_reset {s : State} (h : s.rst = true) : s.cmdReady = false := by simp [State.cmdReady, h]

/-- The outputs of a block that is idle with its pin an input (R22 to R24). -/
theorem outputs_of_idle_input {t : State} (idle : t.phase = .idle) (input : t.dir = true) :
    t.busy = false ∧ t.lineOe = false ∧ t.dirQ = true ∧ t.wire = .z ∧ (t.rst = false → t.cmdReady = true) :=
  ⟨t.busy_eq_false_iff.mpr idle, congrArg Bool.not input, input, State.wire_of_input input,
    fun released => t.cmdReady_eq_true_iff.mpr ⟨idle, released⟩⟩

/-- Settles O11: a step and every instruction executed under reset lead to one state (`exec_reset`), in which the
block's fields are those of the reset action (`nextState_owned_reset`). -/
theorem resetActionGivesTheResetState : Obligations.ResetActionGivesTheResetState := by
  intro s reset
  have stepped := step_eq_nextState s
  have owned := nextState_owned_reset reset
  have idle : s.nextState.phase = .idle := congrArg Owned.phase owned
  have input : s.nextState.dir = true := congrArg Owned.dir owned
  exact ⟨cmdReady_reset reset, accepts_reset reset, s.nextState, stepped,
    fun i => (exec_reset reset i).trans stepped, idle, congrArg Owned.tmr owned, congrArg Owned.shreg owned, input,
    congrArg Owned.line owned, nextState_siblingsFollow s, outputs_of_idle_input idle input⟩

/-! ### A `TRANSMIT_BYTE` while the pin is an input (R133) -/

/-- `TRANSMIT_BYTE` and its frame write `DIR` in no tick, the one after the frame included (R69, R79 (c)). -/
theorem dir_after_transmit {s : State} {v : Byte} (h : s.accepts = some (.transmitByte v))
    (hr : s.noReset (s.cfg.frameTicks + 1)) {t : Nat} (ht : t ≤ s.cfg.frameTicks + 1) :
    (s.after t).dir = s.dir := by
  rcases (by omega : t = 0 ∨ t = s.cfg.frameTicks + 1 ∨ 1 ≤ t ∧ t ≤ s.cfg.frameTicks) with rfl | rfl | ⟨h1, h2⟩
  · rfl
  · exact congrArg Owned.dir (frame_end h hr)
  · obtain ⟨k, m, -, -, -, slot⟩ := owned_in_some_slot h hr h1 h2
    exact congrArg Owned.dir slot

/-- Settles O48: the latch runs through the slots (`owned_in_slot_of_transmit`) while `DIR`, and with it the wire,
stays as it was (`dir_after_transmit`); a `CONFIGURE` after the frame puts the line at rest. -/
theorem transmitBeforeConfigureIsLost : Obligations.TransmitBeforeConfigureIsLost := by
  intro s v h input hr
  have stays {t : Nat} (ht : t ≤ s.cfg.frameTicks + 1) : (s.after t).dir = true :=
    (dir_after_transmit h hr ht).trans input
  refine ⟨fun t ht => ⟨State.wire_of_input (stays ht), busyAt_transmit_iff h hr ht⟩,
    fun k hk t first last => ?_, congrArg Owned.line (frame_end h hr), stays (Nat.le_refl _),
    fun configured => (atRest_after_configure configured).wire⟩
  have inFrame := slotLast_le_frameTicks s.cfg.toParams (Nat.le_of_lt_succ hk)
  exact congrArg Owned.line
    (owned_in_slot_of_transmit h (noReset_mono hr (by omega)) (Nat.le_of_lt_succ hk) first last)

end Sys2Proof.Machine

/-! ## The block and its surroundings (20_memory.md R36, R39) -/

namespace Sys2Proof.Machine

/-! ### A tick reads only the block, its inputs and the command accepted (R36) -/

/-- The fields the block owns a tick later depend on those fields, the configuration, `rst`, the command accepted and
the number of the tick (which names the draw of a reset) alone. -/
theorem nextState_owned_congr {s s' : State} (cfg : s'.cfg = s.cfg) (owned : s'.owned = s.owned)
    (ticks : s'.ticks = s.ticks) (rst : s'.rst = s.rst) (accepted : s'.accepts = s.accepts) :
    s'.nextState.owned = s.nextState.owned := by
  have phase : s'.phase = s.phase := congrArg Owned.phase owned
  rw [State.nextState_owned, State.nextState_owned]
  rcases hr : s.rst
  · by_cases hp : s.phase = .idle
    · rw [accepts_eq_of_ready hr hp, accepts_eq_of_ready (rst.trans hr) (phase.trans hp)] at accepted
      rw [nextOwned_idle hr hp, nextOwned_idle (rst.trans hr) (phase.trans hp), owned, State.onIdle, State.onIdle,
        accepted, cfg]
    · rw [nextOwned_busy hr hp, nextOwned_busy (rst.trans hr) (phase.trans_ne hp), owned, cfg]
  · rw [nextOwned_reset hr, nextOwned_reset (rst.trans hr), ticks]

/-- The two states may differ in the sibling bits and in the environment alone. -/
structure State.AgreesOnBlock (s s' : State) : Prop where
  cfg : s'.cfg = s.cfg
  owned : s'.owned = s.owned
  ticks : s'.ticks = s.ticks
  rstPin : s'.rstPin = s.rstPin
  cmdPort : s'.cmdPort = s.cmdPort
  caller : s'.caller = s.caller

namespace State.AgreesOnBlock

variable {s s' : State} (h : s.AgreesOnBlock s')
include h

theorem rst : s'.rst = s.rst := congrArg (List.headD · false) h.rstPin

theorem busy : s'.busy = s.busy := (outputs_of_owned h.owned).1

theorem readSample : s'.readSample = s.readSample := by
  rw [State.readSample, State.readSample, h.caller, h.ticks]

theorem callerPresents : s'.callerPresents = s.callerPresents := by
  rw [State.callerPresents, State.callerPresents, h.rst, h.busy, h.caller]

theorem command : s'.command = s.command := by
  simp only [State.command, State.callerItemWord, h.cmdPort, h.callerPresents, h.caller, h.readSample]

theorem accepts : s'.accepts = s.accepts := by
  have phase : s'.phase = s.phase := congrArg Owned.phase h.owned
  rw [State.accepts, State.accepts, State.cmdReady, State.cmdReady, h.rst, phase, h.command]

theorem callerNext : s'.callerNext = s.callerNext := by
  have held : s'.callerHeld = s.callerHeld := by rw [State.callerHeld, State.callerHeld, h.rst, h.busy]
  have onward : s'.callerOnward = s.callerOnward := by
    rw [State.callerOnward, State.callerOnward, held, h.callerPresents, h.caller, h.readSample]
  rw [State.callerNext, State.callerNext, h.cmdPort, h.caller, onward]

/-- No tick lets the sibling bits or the environment through to the block or to its command side. -/
theorem next : s.nextState.AgreesOnBlock s'.nextState where
  cfg := by rw [State.nextState_cfg, State.nextState_cfg, h.cfg]
  owned := nextState_owned_congr h.cfg h.owned h.ticks h.rst h.accepts
  ticks := by rw [State.nextState_eq, State.nextState_eq, State.commit_ticks, State.commit_ticks, h.ticks]
  rstPin := by rw [State.nextState_eq, State.nextState_eq, State.commit_rstPin, State.commit_rstPin, h.rstPin]
  cmdPort := by rw [State.nextState_eq, State.nextState_eq, State.commit_cmdPort, State.commit_cmdPort, h.cmdPort]
  caller := by rw [State.nextState_eq, State.nextState_eq, State.commit_caller, State.commit_caller, h.callerNext]

theorem after (n : Nat) : (s.after n).AgreesOnBlock (s'.after n) := by
  induction n with
  | zero => exact h
  | succ n ih => exact ih.next

end State.AgreesOnBlock

/-- Settles O28, by induction over the ticks: agreement on the block and its command side is kept by every tick. -/
theorem environmentCannotDisturbTheBlock : Obligations.EnvironmentCannotDisturbTheBlock :=
  fun s s' cfg owned ticks rstPin cmdPort caller n =>
    (State.AgreesOnBlock.after (s := s) (s' := s') ⟨cfg, owned, ticks, rstPin, cmdPort, caller⟩ n).owned

end Sys2Proof.Machine

/-! ## The invariant of the reachable states (10_state.md R25) -/

namespace Sys2Proof.Machine

/-- R25 (a) to (e) as a table: the fields the block owns, phase by phase. -/
inductive Owned.Sound (c : Config) : Owned → Prop
  | idle (d l : Level) : (d = false → l = high) →
      Sound c { phase := .idle, tmr := 0, shreg := 0, dir := d, line := l }
  | start (n : Nat) (v : Byte) (d : Level) : 1 ≤ n → n ≤ c.edgeTicks →
      Sound c { phase := .start, tmr := n, shreg := v, dir := d, line := low }
  | data (i n : Nat) (v : Byte) (d : Level) : i < 8 → 1 ≤ n → n ≤ c.dataPeriod → v.toNat < 2 ^ (8 - i) →
      Sound c { phase := .data i, tmr := n, shreg := v, dir := d, line := v.getLsbD 0 }
  | stop (n : Nat) (d : Level) : 1 ≤ n → n ≤ c.edgeTicks →
      Sound c { phase := .stop, tmr := n, shreg := 0, dir := d, line := high }

theorem State.Inv.sound {s : State} (inv : s.Inv) : s.owned.Sound s.cfg := by
  have running (busy : s.phase ≠ .idle) : 1 ≤ s.tmr :=
    Nat.one_le_iff_ne_zero.mpr fun zero => busy (inv.timerZero.mp zero)
  rcases phase_cases s.phase with hp | hp | hp | ⟨i, hi, hp⟩
  · rw [State.owned, hp, inv.timerZero.mpr hp, inv.shregDone (.inr hp)]
    exact .idle _ _ (inv.lineIdle hp)
  · rw [State.owned, hp, inv.lineStart hp]
    exact .start _ _ _ (running (by simp [hp])) (inv.timerEdge (.inl hp))
  · rw [State.owned, hp, inv.lineStop hp, inv.shregDone (.inl hp)]
    exact .stop _ _ (running (by simp [hp])) (inv.timerEdge (.inr hp))
  · rw [State.owned, hp, inv.lineData i ⟨hi, hp⟩]
    exact .data i _ _ _ hi (running (hp ▸ (data_ne i).1)) (inv.timerData i ⟨hi, hp⟩) (inv.shregData i ⟨hi, hp⟩)

theorem State.inv_of_sound {s : State} (ports : s.portsSized) (sound : s.owned.Sound s.cfg) : s.Inv := by
  have fitsEdge {n : Nat} (h : n ≤ s.cfg.edgeTicks) : n < 2 ^ s.cfg.tmrWidth :=
    (le_timerMax_iff _ _).mp (h.trans s.cfg.edge_le)
  have fitsPeriod {n : Nat} (h : n ≤ s.cfg.dataPeriod) : n < 2 ^ s.cfg.tmrWidth :=
    (le_timerMax_iff _ _).mp (h.trans s.cfg.period_le)
  generalize ho : s.owned = o at sound
  cases sound with
  | idle d l rest =>
    obtain ⟨phase, tmr, shreg, dir, line⟩ := Owned.mk.inj ho
    have notData (i : Nat) : s.phase ≠ .data i := phase.trans_ne (data_ne i).1.symm
    exact
      { ports := ports
        timerFits := tmr.trans_lt (Nat.two_pow_pos _)
        timerZero := iff_of_true tmr phase
        timerEdge := by simp [phase]
        timerData := fun i hi => absurd hi.2 (notData i)
        lineStart := by simp [phase]
        lineStop := by simp [phase]
        lineData := fun i hi => absurd hi.2 (notData i)
        shregData := fun i hi => absurd hi.2 (notData i)
        shregDone := fun _ => shreg
        lineIdle := fun _ output => line.trans (rest (dir.symm.trans output)) }
  | start n v d h1 hn =>
    obtain ⟨phase, tmr, shreg, dir, line⟩ := Owned.mk.inj ho
    have notData (i : Nat) : s.phase ≠ .data i := phase.trans_ne (data_ne i).2.1.symm
    exact
      { ports := ports
        timerFits := tmr.trans_lt (fitsEdge hn)
        timerZero := iff_of_false (tmr.trans_ne (Nat.ne_zero_of_lt h1)) (by simp [phase])
        timerEdge := fun _ => tmr.trans_le hn
        timerData := fun i hi => absurd hi.2 (notData i)
        lineStart := fun _ => line
        lineStop := by simp [phase]
        lineData := fun i hi => absurd hi.2 (notData i)
        shregData := fun i hi => absurd hi.2 (notData i)
        shregDone := by simp [phase]
        lineIdle := by simp [phase] }
  | data i n v d hi h1 hn hv =>
    obtain ⟨phase, tmr, shreg, dir, line⟩ := Owned.mk.inj ho
    have notIdle : s.phase ≠ .idle := phase.trans_ne (data_ne i).1
    have notStart : s.phase ≠ .start := phase.trans_ne (data_ne i).2.1
    have notStop : s.phase ≠ .stop := phase.trans_ne (data_ne i).2.2
    have same {j : Nat} (hj : s.inData j) : i = j := data_injective hi hj.1 (phase.symm.trans hj.2)
    exact
      { ports := ports
        timerFits := tmr.trans_lt (fitsPeriod hn)
        timerZero := iff_of_false (tmr.trans_ne (Nat.ne_zero_of_lt h1)) notIdle
        timerEdge := fun h => h.elim (absurd · notStart) (absurd · notStop)
        timerData := fun _ _ => tmr.trans_le hn
        lineStart := (absurd · notStart)
        lineStop := (absurd · notStop)
        lineData := fun _ _ => line.trans (congrArg (BitVec.getLsbD · 0) shreg.symm)
        shregData := fun j hj => by rw [shreg, ← same hj]; exact hv
        shregDone := fun h => h.elim (absurd · notStop) (absurd · notIdle)
        lineIdle := (absurd · notIdle) }
  | stop n d h1 hn =>
    obtain ⟨phase, tmr, shreg, dir, line⟩ := Owned.mk.inj ho
    have notData (i : Nat) : s.phase ≠ .data i := phase.trans_ne (data_ne i).2.2.symm
    exact
      { ports := ports
        timerFits := tmr.trans_lt (fitsEdge hn)
        timerZero := iff_of_false (tmr.trans_ne (Nat.ne_zero_of_lt h1)) (by simp [phase])
        timerEdge := fun _ => tmr.trans_le hn
        timerData := fun i hi => absurd hi.2 (notData i)
        lineStart := by simp [phase]
        lineStop := fun _ => line
        lineData := fun i hi => absurd hi.2 (notData i)
        shregData := fun i hi => absurd hi.2 (notData i)
        shregDone := fun _ => shreg
        lineIdle := by simp [phase] }

/-- The invariant of a state is the table of its owned fields and the width of its port registers. -/
theorem State.inv_iff_sound (s : State) : s.Inv ↔ s.portsSized ∧ s.owned.Sound s.cfg :=
  ⟨fun inv => ⟨inv.ports, inv.sound⟩, fun ⟨ports, sound⟩ => State.inv_of_sound ports sound⟩

/-! ### Every micro-operation keeps the table -/

theorem Owned.Sound.afterReset (c : Config) (drawn : Level) : (Owned.afterReset drawn).Sound c :=
  .idle true drawn (by simp)

theorem Owned.Sound.configured {c : Config} {o : Owned} (h : o.Sound c) (hp : o.phase = .idle) :
    (acceptConfigure o).Sound c := by
  cases h with
  | idle d l _ => exact .idle false high fun _ => rfl
  | start | stop => cases hp
  | data i => exact absurd hp (data_ne i).1

theorem Owned.Sound.transmitting (c : Config) (v : Byte) (o : Owned) : (acceptTransmitByte c v o).Sound c := by
  have started : acceptTransmitByte c v o =
      { phase := .start, tmr := c.edgeTicks, shreg := v, dir := o.dir, line := low } := by
    simp [acceptTransmitByte, Owned.delayMicroseconds, Owned.goto, Owned.setLineLevel]
  rw [started]
  exact .start _ v _ c.edge_pos (Nat.le_refl _)

/-- While a slot is held its timer stays in range (R70). -/
theorem Owned.Sound.held {c : Config} {o : Owned} (h : o.Sound c) (running : 1 < o.tmr) : o.hold.Sound c := by
  cases h with
  | idle => exact absurd running (by simp)
  | start n v d _ hn => exact .start (n - 1) v d (Nat.le_sub_one_of_lt running) ((n.sub_le 1).trans hn)
  | data i n v d hi _ hn hv =>
    exact .data i (n - 1) v d hi (Nat.le_sub_one_of_lt running) ((n.sub_le 1).trans hn) hv
  | stop n d _ hn => exact .stop (n - 1) d (Nat.le_sub_one_of_lt running) ((n.sub_le 1).trans hn)

/-- A shift takes one bit off what is left to send (R92). -/
theorem shiftRightOne_lt {v : Byte} {n : Nat} (h : v.toNat < 2 ^ (n + 1)) : (shiftRightOne v).toNat < 2 ^ n := by
  rw [shiftRightOne, BitVec.toNat_ushiftRight, Nat.shiftRight_eq_div_pow]
  omega

/-- Each slot's end begins the next one as the table has it (R71 to R74). -/
theorem Owned.Sound.slotEnded {c : Config} {o : Owned} (h : o.Sound c) (busy : o.phase ≠ .idle) :
    (o.endSlot c).Sound c := by
  cases h with
  | idle => exact absurd rfl busy
  | start n v d =>
    rw [endSlot_start c rfl]
    exact .data 0 _ v d (by decide) c.period_pos (Nat.le_refl _) v.isLt
  | stop n d =>
    rw [endSlot_stop c rfl]
    exact .idle d high fun _ => rfl
  | data i n v d hi _ _ hv =>
    rcases (by omega : i = 7 ∨ i ≤ 6) with rfl | h6
    · rw [endSlot_data7 c rfl, shiftRightOne_of_lt_two hv]
      exact .stop _ d c.edge_pos (Nat.le_refl _)
    · rw [endSlot_data c h6 rfl, ← shiftRightOne_bit v 0]
      rw [show 8 - i = 8 - (i + 1) + 1 by omega] at hv
      exact .data (i + 1) _ _ d (by omega) c.period_pos (Nat.le_refl _) (shiftRightOne_lt hv)

theorem Owned.Sound.sequenced {c : Config} {o : Owned} (h : o.Sound c) (busy : o.phase ≠ .idle) :
    (o.sequence c).Sound c := by
  rcases Nat.lt_or_ge 1 o.tmr with running | ended
  · exact sequence_hold c running ▸ h.held running
  · exact sequence_end c ended ▸ h.slotEnded busy

/-- Every tick keeps the table, in each of its cases. -/
theorem sound_nextState {s : State} (h : s.owned.Sound s.cfg) : s.nextState.owned.Sound s.cfg := by
  rw [State.nextState_owned]
  rcases tick_cases s with ⟨-, tick⟩ | ⟨-, hp, -, tick⟩ | ⟨-, -, v, -, tick⟩ | ⟨-, -, -, tick⟩ | ⟨-, busy, -, tick⟩
  · exact tick ▸ .afterReset _ _
  · exact tick ▸ h.configured hp
  · exact tick ▸ .transmitting _ v _
  · exact tick ▸ h
  · exact tick ▸ h.sequenced busy

theorem State.Inv.nextState {s : State} (inv : s.Inv) : s.nextState.Inv :=
  State.inv_of_sound (nextState_siblingsFollow s).1 (s.nextState_cfg ▸ sound_nextState inv.sound)

/-- Settles O34: the invariant is the table of the owned fields (`State.inv_iff_sound`), which every tick keeps
(`sound_nextState`), and the port registers get their width from every tick. -/
theorem everyStepKeepsTheInvariant : Obligations.EveryStepKeepsTheInvariant := by
  intro s t inv stepped
  rw [step_eq_nextState] at stepped
  cases stepped
  exact inv.nextState

/-- Settles O35: the reset state is idle as the table has it. -/
theorem resetStateMeetsTheInvariant : Obligations.ResetStateMeetsTheInvariant :=
  State.inv_of_sound ⟨rfl, rfl⟩ (.idle true false (by simp))

end Sys2Proof.Machine

/-! ## The first LOW run, and two frames in a row (43_waveform_and_receiver.md R81, R102, R107) -/

namespace Sys2Proof.Machine

/-! ### The low zeros of a byte (R102) -/

/-- The low zeros are the places before the first 1 bit. -/
theorem lowZeros_eq_findIdx (v : Byte) : lowZeros v = (List.range 8).findIdx fun i => v.getLsbD i := by
  rw [lowZeros, List.takeWhile_eq_take_findIdx_not, List.length_take, Nat.min_eq_left List.findIdx_le_length]
  simp only [Bool.not_not]

theorem lowZeros_le (v : Byte) : lowZeros v ≤ 8 :=
  (lowZeros_eq_findIdx v).trans_le (List.findIdx_le_length.trans_eq List.length_range)

/-- The bits below the first 1 are 0. -/
theorem bit_of_lt_lowZeros {v : Byte} {i : Nat} (hi : i < lowZeros v) : v.getLsbD i = false := by
  rw [lowZeros_eq_findIdx] at hi
  simpa using List.not_of_lt_findIdx hi

/-- The low zeros end at a 1 bit, where they end inside the byte. -/
theorem bit_lowZeros {v : Byte} (h : lowZeros v < 8) : v.getLsbD (lowZeros v) = true := by
  rw [lowZeros_eq_findIdx] at h ⊢
  have found := List.findIdx_getElem (xs := List.range 8) (p := fun i => v.getLsbD i) (w := by simpa using h)
  rwa [List.getElem_range] at found

/-- The slots that begin a frame, up to the last of the low zeros, are LOW. -/
theorem slotLevel_of_le_lowZeros {v : Byte} {k : Nat} (hk : k ≤ lowZeros v) : slotLevel v k = low := by
  have := lowZeros_le v
  rcases k with _ | i
  · rfl
  · rw [slotLevel_data v (Nat.le_add_left 1 i) (by omega)]
    exact bit_of_lt_lowZeros hk

/-- The slot after them is HIGH: the first 1 bit, or the Stop slot. -/
theorem slotLevel_after_lowZeros (v : Byte) : slotLevel v (lowZeros v + 1) = high := by
  rcases Nat.lt_or_eq_of_le (lowZeros_le v) with inByte | all
  · rw [slotLevel_data v (Nat.le_add_left 1 _) inByte]
    exact bit_lowZeros inByte
  · rw [all]
    rfl

/-! ### The first LOW run (R102) -/

/-- The slots partition the ticks of a frame: a tick up to the end of slot `j` is in slot `j` or an earlier one. -/
theorem exists_slot_le (p : Params) {j t : Nat} (hj : j ≤ 9) (h1 : 1 ≤ t) (h2 : t ≤ slotLast p j) :
    ∃ k, k ≤ j ∧ slotFirst p k ≤ t ∧ t ≤ slotLast p k := by
  obtain ⟨k, hk, first, last⟩ := exists_slot_of_tick p h1 (h2.trans (slotLast_le_frameTicks p hj))
  refine ⟨k, ?_, first, last⟩
  by_contra later
  have := slotLast_lt_slotFirst p (Nat.lt_of_not_le later) hk
  omega

/-- The ticks of the Start slot and of the low zeros are LOW, and the tick after them is HIGH. -/
theorem levelRun_of_transmit {s : State} {v : Byte} (h : s.accepts = some (.transmitByte v))
    (wire : s.wire = .driven high) (hr : s.noReset (s.cfg.frameTicks + 1)) :
    s.levelRun low 1 (slotLast s.cfg.toParams (lowZeros v)) := by
  obtain ⟨output, -⟩ := (s.wire_eq_driven_iff high).mp wire
  have hz := lowZeros_le v
  have ended := slotLast_le_frameTicks s.cfg.toParams (Nat.le_succ_of_le hz)
  refine ⟨?_, fun t last first => ?_, ?_, .inr ?_⟩
  · have := s.cfg.edge_pos
    rw [slotLast_data _ hz]
    omega
  · obtain ⟨k, hk, firstOf, lastOf⟩ := exists_slot_le s.cfg.toParams (Nat.le_succ_of_le hz) first last
    rw [wireAt_in_slot h output (noReset_mono hr (by omega)) (by omega) firstOf lastOf, slotLevel_of_le_lowZeros hk]
  · have next := slotFirst_succ s.cfg.toParams (Nat.lt_succ_of_le hz)
    have early : slotFirst s.cfg.toParams (lowZeros v + 1) ≤ s.cfg.frameTicks + 1 := next ▸ Nat.succ_le_succ ended
    have inSlot : slotFirst s.cfg.toParams (lowZeros v + 1) ≤ slotLast s.cfg.toParams (lowZeros v + 1) :=
      Nat.add_le_add_left (slotLength_pos s.cfg _) _
    rw [← next, wireAt_in_slot h output (noReset_mono hr early) (Nat.succ_le_succ hz) (Nat.le_refl _) inSlot,
      slotLevel_after_lowZeros]
    simp
  · change s.wire ≠ .driven low
    simp [wire]

/-- Settles O47: the run is the Start slot and the slots of the low zeros (`levelRun_of_transmit`), which end
`E + DP * z` ticks after the acceptance (`slotLast_data`). -/
theorem firstLowRunCountsTheLowZeros : Obligations.FirstLowRunCountsTheLowZeros := by
  intro s v h wire hr
  have run := levelRun_of_transmit h wire hr
  rw [slotLast_data _ (lowZeros_le v), Nat.mul_comm] at run
  exact ⟨fallingEdge_of_transmit h wire, run, lowZeros_le v, fun _ hi => bit_of_lt_lowZeros hi, bit_lowZeros⟩

/-! ### Two frames in a row (R81, R107) -/

theorem noFrameBegins_of_accepts_none {s : State} {t : Nat} (h : (s.after t).accepts = none) : s.noFrameBegins t := by
  intro v
  rw [h]
  simp

theorem wireAt_after (s : State) (a n : Nat) : (s.after a).wireAt n = s.wireAt (a + n) := by
  rw [State.wireAt, State.wireAt, State.after_add]

/-- From a frame's Stop slot to the tick in which the next command can be accepted the wire is HIGH. -/
theorem wireAt_high_to_next {s : State} {v : Byte} (h : s.accepts = some (.transmitByte v)) (output : s.dir = false)
    (hr : s.noReset (s.cfg.frameTicks + 1)) {t : Nat} (stop : slotFirst s.cfg.toParams 9 ≤ t)
    (ht : t ≤ s.cfg.frameTicks + 1) : s.wireAt t = .driven high := by
  refine wireAt_high_from_stop h output hr (fun t pos lt => ?_) stop ht
  exact noFrameBegins_of_accepts_none (accepts_none_in_frame h (noReset_mono hr lt.le) pos (Nat.le_of_lt_succ lt))

/-- The wire is LOW in the Start slot. -/
theorem wireAt_low_in_start {s : State} {v : Byte} {t : Nat} (h : s.accepts = some (.transmitByte v))
    (output : s.dir = false) (hr : s.noReset t) (h1 : 1 ≤ t) (h2 : t ≤ s.cfg.edgeTicks) :
    s.wireAt t = .driven low :=
  wireAt_in_slot h output hr (Nat.zero_le 9) (by rwa [slotFirst_zero]) (by rwa [slotLast_zero])

/-- The Stop slot is the last `E` ticks of the frame. -/
theorem slotFirst_stop_add (p : Params) : slotFirst p 9 + p.edgeTicks = p.frameTicks + 1 := by
  have last : slotOffset p 9 + p.edgeTicks = p.frameTicks := slot_last_stop p
  unfold slotFirst
  omega

/-- Settles O53: the second frame is the first one's lemmas from the tick in which it is accepted, a tick in which
`DIR` is as before (`dir_after_transmit`). -/
theorem consecutiveFramesAreBothReceived : Obligations.ConsecutiveFramesAreBothReceived := by
  intro s v u first second output hr
  have hrFirst : s.noReset (s.cfg.frameTicks + 1) := noReset_mono hr (by omega)
  have hrSecond : (s.after (s.cfg.frameTicks + 1)).noReset (s.cfg.frameTicks + 1) :=
    noReset_after (noReset_mono hr (by omega))
  have outputSecond := (dir_after_transmit first hrFirst (Nat.le_refl _)).trans output
  have cfg : (s.after (s.cfg.frameTicks + 1)).cfg = s.cfg := s.after_cfg _
  have short : s.cfg.edgeTicks ≤ s.cfg.frameTicks :=
    slotLast_zero s.cfg.toParams ▸ slotLast_le_frameTicks _ (Nat.zero_le 9)
  refine ⟨fun t stop ht => wireAt_high_to_next first output hrFirst stop ht, fun t start ht => ?_, ?_,
    receive_frame first output hrFirst, ?_⟩
  · obtain ⟨n, rfl⟩ : ∃ n, t = s.cfg.frameTicks + 1 + n := ⟨t - (s.cfg.frameTicks + 1), by omega⟩
    rw [← wireAt_after]
    exact wireAt_low_in_start second outputSecond
      (noReset_after (noReset_mono hr (by omega))) (by omega) (by rw [cfg]; omega)
  · have := slotFirst_stop_add s.cfg.toParams
    omega
  · have received := receive_frame second outputSecond (by rwa [cfg])
    rwa [cfg, ← receive_after] at received

/-- Settles O49: nothing is accepted in a frame (`accepts_none_in_frame`); in the tick after it the block is idle
(`frame_end`), and what is accepted then begins as every frame does. -/
theorem backToBackCalls : Obligations.BackToBackCalls := by
  intro s v h hr
  have hrFrame : s.noReset (s.cfg.frameTicks + 1) := noReset_mono hr (Nat.le_succ _)
  have idle : (s.after s.cfg.pitchMin).phase = .idle := congrArg Owned.phase (frame_end h hrFrame)
  have released : (s.after s.cfg.pitchMin).rst = false := noReset_rst hr (Nat.lt_succ_self _)
  refine ⟨fun n h1 hn => ⟨accepts_none_in_frame h (noReset_mono hr (by omega)) h1 hn, ?_⟩,
    (State.cmdReady_eq_true_iff _).mpr ⟨idle, released⟩,
    fun w hw => by rw [accepts_eq_of_ready released idle, hw, Option.map_some], fun u next output => ⟨?_, ?_, ?_⟩⟩
  · have busy := (State.busy_eq_true_iff _).mp ((busyAt_transmit_iff h hrFrame (Nat.le_succ_of_le hn)).mpr ⟨h1, hn⟩)
    exact Bool.eq_false_iff.mpr fun ready => busy ((State.cmdReady_eq_true_iff _).mp ready).1
  · have begun := owned_after_transmit next
    rw [← State.after_add] at begun
    exact congrArg Owned.phase begun
  · have outputNext := (dir_after_transmit h hrFrame (Nat.le_refl _)).trans output
    have lowered := wireAt_low_in_start (t := 1) next outputNext (noReset_after hr) (Nat.le_refl 1)
      (Config.edge_pos _)
    rwa [wireAt_after] at lowered
  · intro t stop last
    have := slotFirst_stop_add s.cfg.toParams
    exact wireAt_high_to_next h output hrFrame stop (by omega)

end Sys2Proof.Machine

/-! ## Commands, their words and the assembler (30_encoding.md R49 to R52, R57, R61) -/

namespace Sys2Proof

/-! ### Decoding and encoding (R50 to R52) -/

@[simp] theorem decode_encode (i : Instr) : decode (encode i) = i := by
  cases i with
  | configure => rfl
  | transmitByte v =>
    obtain ⟨op, value⟩ := encode_transmitByte_fields v
    rw [decode_of_op_set op, value]

/-- Of the constant 0x100 in a command word only bit 8 is set. -/
theorem opMask_bit (k : Nat) : (0x100#9).getLsbD k = decide (k = 8) :=
  (BitVec.getLsbD_twoPow (w := 9) 8 k).trans (by simp [eq_comm])

/-- The word `0x100 | VALUE` of a word with `OP = 1` is the word itself. -/
theorem encode_valueField {w : Command} (op : opField w = true) : encode (.transmitByte (valueField w)) = w := by
  apply BitVec.eq_of_getLsbD_eq
  intro i hi
  rw [encode, BitVec.getLsbD_or, opMask_bit]
  rcases (by omega : i = 8 ∨ i < 8) with rfl | hi8
  · have bit : w.getLsbD 8 = true := op
    simp [bit]
  · simp [valueField, hi, hi8, hi8.ne]

theorem encode_decode (w : Command) : encode (decode w) = if opField w then w else 0x000#9 := by
  cases op : opField w with
  | false => rw [decode_of_op_clear op, if_neg (by decide)]; rfl
  | true => rw [decode_of_op_set op, if_pos rfl, encode_valueField op]

/-! ### Words as numbers (R49) -/

/-- A number of 9 bits decodes as the word it is. -/
theorem decodeWord_of_lt {n : Nat} (h : n < 512) : decodeWord n = .ok (decode (BitVec.ofNat 9 n)) := if_pos h

theorem decodeWord_of_le {n : Nat} (h : 512 ≤ n) : decodeWord n = .error (.widerThanCommandWord n) :=
  if_neg (Nat.not_lt.mpr h)

theorem decodeWord_toNat (w : Command) : decodeWord w.toNat = .ok (decode w) := by
  rw [decodeWord_of_lt w.isLt, BitVec.ofNat_toNat, BitVec.setWidth_eq]

/-- A table word that has room for the command word is the command word. -/
theorem decodeTableWord_toNat {nbits : Nat} (h : 9 ≤ nbits) (w : Command) :
    decodeTableWord nbits w.toNat = some (decode w) := by
  have fits : w.toNat < 2 ^ nbits := w.isLt.trans_le (Nat.pow_le_pow_right (by decide) h)
  rw [decodeTableWord, tableBits, Nat.mod_eq_of_lt fits, decodeWord_toNat]

/-- Two bytes, the first the less significant, spell the word (log entry 8). -/
theorem wordOfBytes_of_word (w : Command) : wordOfBytes [w.setWidth 8, (w >>> 8).setWidth 8] = w.toNat := by
  have := w.isLt
  simp only [wordOfBytes, BitVec.toNat_setWidth, BitVec.toNat_ushiftRight, Nat.shiftRight_eq_div_pow]
  omega

theorem instr_wellFormed (i : Instr) : i.wellFormed = true := by
  cases i with
  | configure => exact Laws.RowWord.configure.1
  | transmitByte v => exact (Laws.RowWord.transmitByte v).1

/-- Settles O2: each form of the word decodes as the word does, and the word of an instruction decodes to it. -/
theorem decodeOfEncodeIsTheInstruction : Obligations.DecodeOfEncodeIsTheInstruction := by
  refine ⟨fun i => ⟨instr_wellFormed i, decode_encode i, ?_, ?_, ?_⟩, encode_decode⟩
  · rw [decodeTableWord_toNat (by decide), decode_encode]
  · rw [decodeTableWord_toNat (by decide), decode_encode]
  · rw [decodeBytes, wordOfBytes_of_word, decodeWord_toNat, decode_encode]

/-- Settles O3: the words are written out, and decoding computes. -/
theorem wordsOfTheSpecDecode : Obligations.WordsOfTheSpecDecode := by
  unfold Obligations.WordsOfTheSpecDecode
  decide

/-- Settles O4, by the two branches of the decoder on numbers. -/
theorem commandsAreNineBits : Obligations.CommandsAreNineBits :=
  fun _ => ⟨decodeWord_of_lt, decodeWord_of_le⟩

end Sys2Proof

namespace Sys2Proof.Machine

/-! ### The assembler (R57, R61) -/

theorem byte_toNat {v : Nat} (h : v ≤ 255) : (BitVec.ofNat 8 v).toNat = v :=
  (BitVec.toNat_ofNat v 8).trans (Nat.mod_eq_of_lt (Nat.lt_succ_of_le h))

/-- The number of the word `0x100 | v`. -/
theorem encode_transmitByte_toNat {v : Nat} (h : v ≤ 255) :
    (encode (.transmitByte (BitVec.ofNat 8 v))).toNat = 0x100 ||| v := by
  have value : (BitVec.ofNat 8 v).toNat = v := byte_toNat h
  rw [encode, BitVec.toNat_or, BitVec.toNat_setWidth, value, Nat.mod_eq_of_lt (by omega : v < 2 ^ 9)]
  rfl

theorem assemble_transmitByte {v : Nat} (h : v ≤ 255) :
    assemble (.transmitByte v) = .ok [.command (.transmitByte (BitVec.ofNat 8 v))] := by
  simp [assemble, SourceItem.wellFormed, h]

theorem assemble_transmitByte_wide {v : Nat} (h : 255 < v) :
    assemble (.transmitByte v) = .error (.valueOutOfRange v) := by
  simp [assemble, SourceItem.wellFormed, h]

/-- Settles O5: a value of 8 bits is the operand, and its word is `0x100 | v`; a larger one is refused. -/
theorem assemblerWords : Obligations.AssemblerWords :=
  ⟨rfl, rfl, fun v =>
    ⟨fun h => ⟨BitVec.ofNat 8 v, assemble_transmitByte h, byte_toNat h,
      encode_transmitByte_toNat h⟩, assemble_transmitByte_wide⟩⟩

theorem digitCode_toNat {d : Nat} (h : d ≤ 9) : (digitCode d).toNat = 48 + d :=
  byte_toNat (by omega)

theorem assemble_decimalLine {d2 d1 d0 : Nat} (h2 : d2 ≤ 9) (h1 : d1 ≤ 9) (h0 : d0 ≤ 9) :
    assemble (.transmitDecimalLine d2 d1 d0) =
      .ok [.command (.transmitByte (digitCode d2)), .command (.transmitByte (digitCode d1)),
        .command (.transmitByte (digitCode d0)), .command (.transmitByte 13), .command (.transmitByte 10)] := by
  simp [assemble, SourceItem.wellFormed, decimalLine, h2, h1, h0]

/-- The digits of a byte are decimal digits, and they spell it. -/
theorem decimalDigits_spec (v : Byte) : (decimalDigits v).1 ≤ 9 ∧ (decimalDigits v).2.1 ≤ 9 ∧
    (decimalDigits v).2.2 ≤ 9 ∧
    100 * (decimalDigits v).1 + 10 * (decimalDigits v).2.1 + (decimalDigits v).2.2 = v.toNat := by
  have := v.isLt
  simp only [decimalDigits]
  omega

/-- Settles O6: the expansion in its five commands, and the digits of a byte by division. -/
theorem decimalLineExpansion : Obligations.DecimalLineExpansion :=
  ⟨fun d2 d1 d0 h2 h1 h0 => ⟨digitCode d2, digitCode d1, digitCode d0, assemble_decimalLine h2 h1 h0,
    digitCode_toNat h2, digitCode_toNat h1, digitCode_toNat h0⟩, decimalDigits_spec⟩

/-! ### The command on the port and the step (R49, R52, R53, R55) -/

/-- A step executes the word presented to it (R53). -/
theorem step_present (s : State) (w : Command) :
    step (s.present w) = exec (decode w) (s.present w) := by
  simp only [step, State.present_command]

/-- Settles O15: a word with `OP = 0` decodes to `CONFIGURE`, and the step hands on nothing else of it. -/
theorem allConfigureWordsActAlike : Obligations.AllConfigureWordsActAlike := by
  intro s w w' op op'
  refine ⟨decode_of_op_clear op, ?_⟩
  rw [step_present, step_present, decode_of_op_clear op, decode_of_op_clear op']
  rfl

theorem step_of_command {s : State} {w : Command} (h : s.command = some w) : step s = exec (decode w) s := by
  simp only [step, h]

/-- A command is accepted exactly when an idle block that is not held in reset has a word for it on its port (R53). -/
theorem accepts_iff (s : State) (i : Instr) : s.accepts = some i ↔
    s.rst = false ∧ s.phase = .idle ∧ ∃ w, s.command = some w ∧ decode w = i := by
  constructor
  · intro h
    obtain ⟨hr, hp, hc⟩ := accepts_some h
    exact ⟨hr, hp, Option.map_eq_some_iff.mp hc⟩
  · rintro ⟨hr, hp, w, hw, rfl⟩
    rw [accepts_eq_of_ready hr hp, hw, Option.map_some]

theorem step_of_accepts {s : State} {i : Instr} (h : s.accepts = some i) : step s = exec i s := by
  obtain ⟨-, -, w, hw, rfl⟩ := (accepts_iff s i).mp h
  exact step_of_command hw

/-- What a directly driven port presents (R55). -/
theorem command_of_port {s : State} {pins : CommandPins} {rest : List CommandPins} (h : s.cmdPort = pins :: rest) :
    s.command = if pins.valid then some pins.word else none := by
  simp only [State.command, h]

/-- A table word that decodes is, as a number, the command word `withFetchWord` presents. -/
theorem decode_of_tableWord {nbits w : Nat} {i : Instr} (h : decodeTableWord nbits w = some i) :
    decode (BitVec.ofNat 9 (tableBits nbits w)) = i := by
  rcases Nat.lt_or_ge (tableBits nbits w) 512 with fits | wide
  · simpa [decodeTableWord, decodeWord_of_lt fits] using h
  · simp [decodeTableWord, decodeWord_of_le wide] at h

theorem withFetchWord_of_some {s : State} {nbits w : Nat} {i : Instr} (h : decodeTableWord nbits w = some i) :
    s.withFetchWord nbits w = s.present (BitVec.ofNat 9 (tableBits nbits w)) := by
  simp only [State.withFetchWord, h]

theorem withFetchWord_of_none {s : State} {nbits w : Nat} (h : decodeTableWord nbits w = none) :
    s.withFetchWord nbits w = s.presentNothing 0x000#9 := by
  simp only [State.withFetchWord, h]

/-- Settles O8: the branches of the step, of the acceptance and of the command port, each by its own lemma. -/
theorem stepExecutesTheCommandOnThePort : Obligations.StepExecutesTheCommandOnThePort := by
  refine ⟨fun _ _ => step_of_command, fun _ => step_of_no_command, accepts_iff, fun _ _ => step_of_accepts,
    fun s pins rest port => ⟨fun valid => ?_, fun invalid => ?_⟩, fun s nbits w i h => ?_, fun s nbits w h => ?_⟩
  · rw [command_of_port port, valid, if_pos rfl]
  · rw [command_of_port port, invalid, if_neg (by decide)]
  · rw [withFetchWord_of_some h, step_present, decode_of_tableWord h]
  · rw [withFetchWord_of_none h, State.presentNothing_command]

/-! ### The run (R11) -/

/-- A run is its first tick and the run from there. -/
theorem after_nextState (s : State) (n : Nat) : s.nextState.after n = s.after (n + 1) := by
  rw [Nat.add_comm, State.after_add, after_one]

/-- The host's run of the core is the run tick by tick. -/
theorem core_run (s : State) (n : Nat) : Sys2Proof.core.run n s = .next (s.after n) := by
  induction n generalizing s with
  | zero => rfl
  | succ n ih =>
    have first : Sys2Proof.core.step s = .next s.nextState := step_eq_nextState s
    simp only [Host.Core.run, first]
    exact (ih s.nextState).trans (congrArg Host.Outcome.next (after_nextState s n))

theorem callerNext_of_port {s : State} (h : s.cmdPort ≠ []) : s.callerNext = s.caller := by
  obtain ⟨pins, rest, port⟩ := List.exists_cons_of_ne_nil h
  simp only [State.callerNext, port]

/-- Settles O9: the run is `core_run`, and the end of a tick moves every agent on by one. -/
theorem everyTickMovesTheAgentsOn : Obligations.EveryTickMovesTheAgentsOn :=
  ⟨core_run, fun s => ⟨_, step_eq s, rfl, rfl, rfl, rfl, rfl, rfl, callerNext_of_port⟩⟩

/-- Settles O10: the reset state is written out, and its outputs compute. -/
theorem resetStateHasTheSpecifiedValues : Obligations.ResetStateHasTheSpecifiedValues := by
  unfold Obligations.ResetStateHasTheSpecifiedValues
  decide

end Sys2Proof.Machine

/-! ## Reset in a frame, and ticks without command (70_reset_and_hazards.md R126, 41_transmit_byte.md R75) -/

namespace Sys2Proof.Machine

/-! ### A reset forgets the frame (R126) -/

theorem callerHeld_of_reset {s : State} (hr : s.rst = true) : s.callerHeld = true := by
  simp [State.callerHeld, hr]

theorem callerPresents_of_reset {s : State} (hr : s.rst = true) : s.callerPresents = false := by
  simp [State.callerPresents, hr]

/-- Under reset the host is held and presents nothing, whatever the block does. -/
theorem callerNext_withSequencer_reset {s : State} (hr : s.rst = true) (p : Phase) (n : Nat) (v : Byte) :
    (s.withSequencer p n v).callerNext = s.callerNext := by
  have hr' : (s.withSequencer p n v).rst = true := hr
  have onward : (s.withSequencer p n v).callerOnward = s.callerOnward := by
    rw [State.callerOnward, State.callerOnward, callerHeld_of_reset hr, callerHeld_of_reset hr',
      callerPresents_of_reset hr, callerPresents_of_reset hr']
    rfl
  rw [State.callerNext, State.callerNext, onward]
  rfl

/-- The state after a reset has nothing of the sequencer before it. -/
theorem step_withSequencer_reset {s : State} (hr : s.rst = true) (p : Phase) (n : Nat) (v : Byte) :
    step (s.withSequencer p n v) = step s := by
  have hr' : (s.withSequencer p n v).rst = true := hr
  rw [step_eq, step_eq, nextOwned_reset hr, nextOwned_reset hr', State.commit, State.commit,
    callerNext_withSequencer_reset hr]
  rfl

/-- Settles O12: the step reads nothing of the sequencer, and the state it leads to is the reset action's. -/
theorem resetForgetsTheFrame : Obligations.ResetForgetsTheFrame := by
  intro s p n v reset _
  have owned := nextState_owned_reset reset
  have idle : s.nextState.phase = .idle := congrArg Owned.phase owned
  have input : s.nextState.dir = true := congrArg Owned.dir owned
  obtain ⟨free, -, -, wire, ready⟩ := outputs_of_idle_input idle input
  exact ⟨step_withSequencer_reset reset p n v, idle, congrArg Owned.shreg owned, wire, free, ready⟩

/-! ### Idle ticks without command (R75, R137) -/

/-- Settles O22: an idle tick without command accepts nothing, and so it keeps the fields the block owns, one tick
(`owned_after_idle`) or many (`owned_idle_run`). -/
theorem idleWithoutCommandChangesNothing : Obligations.IdleWithoutCommandChangesNothing := by
  refine ⟨fun s hr hp quiet => ?_, fun s n hp hr quiet => ?_⟩
  · exact ⟨s.nextState, step_eq_nextState s, owned_after_idle hr hp (accepts_none_of_command quiet),
      nextState_siblingsFollow s⟩
  · have kept := owned_idle_run hp hr fun k hk => accepts_none_of_command (quiet k hk)
    exact ⟨kept, wire_of_owned kept⟩

end Sys2Proof.Machine

/-! ## The environment's choices for the sibling bits (20_memory.md R39) -/

namespace Sys2Proof.Machine

/-- A move that lists pins with the level `level` gives them has that level for every pin it lists. -/
theorem lookup_map_level (level : Nat → Level) {pins : List Nat} {j : Nat} (h : j ∈ pins) :
    (pins.map fun i => (i, level i)).lookup j = some (level j) := by
  induction pins with
  | nil => cases h
  | cons a pins ih =>
    rw [List.map_cons, List.lookup_cons]
    by_cases e : j = a
    · rw [e, beq_self_eq_true]
    · rw [beq_false_of_ne e]
      exact ih ((List.mem_cons.mp h).resolve_left e)

/-- A scheduled move that lists the pin gives it the listed direction. -/
theorem envDir_of_move {s : State} {move : EnvMove} {rest : List EnvMove} {j : Nat} {l : Level}
    (h : s.env = move :: rest) (listed : move.dir.lookup j = some l) : s.envDir j = l := by
  simp only [State.envDir, h, listed, Option.getD_some]

/-- A scheduled move that lists the pin gives it the listed latch bit. -/
theorem envLat_of_move {s : State} {move : EnvMove} {rest : List EnvMove} {j : Nat} {l : Level}
    (h : s.env = move :: rest) (listed : move.lat.lookup j = some l) : s.envLat j = l := by
  simp only [State.envLat, h, listed, Option.getD_some]

/-- Settles O27: after any tick the sibling bits are the environment's choice (`step_siblingsFollow`), and that
is the entry of its move, the bit as it was, or a free value. -/
theorem environmentGivesSiblingBitsAnyValue : Obligations.EnvironmentGivesSiblingBitsAnyValue := by
  refine ⟨fun s d l rest move => ?_, fun s unscheduled idle => ?_, fun s unscheduled free => ?_⟩
  · obtain ⟨t, stepped, -, siblings⟩ := step_siblingsFollow s
    refine ⟨t, stepped, fun j hj sibling => ?_⟩
    obtain ⟨dir, lat⟩ := siblings j hj sibling
    have listed := List.mem_range.mpr hj
    exact ⟨dir.trans (envDir_of_move move (lookup_map_level d listed)),
      lat.trans (envLat_of_move move (lookup_map_level l listed))⟩
  · obtain ⟨t, stepped, -, siblings⟩ := step_siblingsFollow s
    simp only [State.envDir, State.envLat, unscheduled, idle] at siblings
    exact ⟨t, stepped, siblings⟩
  · obtain ⟨t, stepped, -, siblings⟩ := step_siblingsFollow s
    simp only [State.envDir, State.envLat, unscheduled, free] at siblings
    exact ⟨t, stepped, siblings⟩

end Sys2Proof.Machine

/-! ## The block as an automaton (10_state.md R15, R17, R19, R20, 41_transmit_byte.md R82) -/

namespace Sys2Proof.Machine

/-! ### What a tick does to `LINE` and `DIR` (R19, R20, R34) -/

theorem nextState_line (s : State) : s.nextState.line = (s.nextOwned s.onIdle).line :=
  congrArg Owned.line s.nextState_owned

theorem nextState_dir (s : State) : s.nextState.dir = (s.nextOwned s.onIdle).dir :=
  congrArg Owned.dir s.nextState_owned

/-- A busy tick writes `LINE` only where a slot other than the Stop slot ends (R70, R74). -/
theorem line_of_sequence {c : Config} {o : Owned} (h : (o.sequence c).line ≠ o.line) :
    o.phase ≠ .stop ∧ o.tmr ≤ 1 := by
  rcases Nat.lt_or_ge 1 o.tmr with running | ended
  · rw [sequence_hold c running] at h
    exact absurd rfl h
  · refine ⟨fun stop => ?_, ended⟩
    rw [sequence_end c ended, endSlot_stop c stop] at h
    exact absurd rfl h

/-- Settles O29, by the cases of a tick. -/
theorem lineIsWrittenOnlyAtSlotBoundaries : Obligations.LineIsWrittenOnlyAtSlotBoundaries := by
  intro s
  refine ⟨s.nextState, step_eq_nextState s, fun changed => ?_⟩
  rw [nextState_line] at changed ⊢
  rcases tick_cases s with ⟨reset, -⟩ | ⟨-, -, accepted, tick⟩ | ⟨-, -, v, accepted, tick⟩ | ⟨-, -, -, tick⟩ |
    ⟨-, busy, -, tick⟩
  · exact .inl reset
  · exact .inr (.inl ⟨accepted, congrArg Owned.line tick⟩)
  · exact .inr (.inr (.inl ⟨⟨v, accepted⟩, congrArg Owned.line tick⟩))
  · exact absurd (congrArg Owned.line tick) changed
  · rw [tick] at changed
    exact .inr (.inr (.inr ⟨s.busy_eq_true_iff.mpr busy, line_of_sequence changed⟩))

/-- Settles O30, by the cases of a tick. -/
theorem directionIsWrittenOnlyByConfigureAndReset : Obligations.DirectionIsWrittenOnlyByConfigureAndReset := by
  intro s
  refine ⟨s.nextState, step_eq_nextState s, fun changed => ?_⟩
  rw [nextState_dir] at changed ⊢
  rcases tick_cases s with ⟨reset, tick⟩ | ⟨-, -, accepted, tick⟩ | ⟨-, -, v, -, tick⟩ | ⟨-, -, -, tick⟩ |
    ⟨-, -, -, tick⟩
  · exact .inl ⟨reset, congrArg Owned.dir tick⟩
  · exact .inr ⟨accepted, congrArg Owned.dir tick⟩
  · exact absurd (congrArg Owned.dir tick) changed
  · exact absurd (congrArg Owned.dir tick) changed
  · exact absurd ((congrArg Owned.dir tick).trans (sequence_dir _ _)) changed

/-! ### What a tick does to `PHASE` and `TMR` (R15, R17, R82, R94) -/

theorem nextState_phase (s : State) : s.nextState.phase = (s.nextOwned s.onIdle).phase :=
  congrArg Owned.phase s.nextState_owned

theorem nextState_tmr (s : State) : s.nextState.tmr = (s.nextOwned s.onIdle).tmr :=
  congrArg Owned.tmr s.nextState_owned

theorem sequence_phase {o : Owned} (c : Config) (busy : o.phase ≠ .idle) :
    (o.sequence c).phase = if o.tmr ≤ 1 then o.phase.succ else o.phase := by
  rcases Nat.lt_or_ge 1 o.tmr with running | ended
  · rw [sequence_hold c running, if_neg (Nat.not_le.mpr running), Owned.hold_phase]
  · rw [sequence_end c ended, if_pos ended, endSlot_phase c busy]

/-- Settles O31: the idle cases of a tick, and `sequence_phase` for a busy one. -/
theorem phaseMovesInOrder : Obligations.PhaseMovesInOrder := by
  intro s
  refine ⟨s.nextState, step_eq_nextState s, fun reset => ?_, fun running idle => ?_, fun running busy => ?_⟩
  · rw [nextState_phase, nextOwned_reset reset]
    rfl
  · rw [nextState_phase, nextOwned_idle running idle]
    rcases onIdle_cases running idle with ⟨accepted, tick⟩ | ⟨v, accepted, tick⟩ | ⟨accepted, tick⟩
    · exact .inr ⟨by rw [tick]; exact idle, by simp [accepted]⟩
    · exact .inl ⟨by rw [tick]; rfl, v, accepted⟩
    · exact .inr ⟨by rw [tick]; exact idle, by simp [accepted]⟩
  · rw [nextState_phase, nextOwned_busy running busy, sequence_phase _ busy]
    rfl

/-- The timer after the end of a slot: the length of the next one, and 0 after the last. -/
theorem endSlot_tmr_congr {o o' : Owned} (c : Config) (phase : o'.phase = o.phase) (busy : o.phase ≠ .idle) :
    (o'.endSlot c).tmr = (o.endSlot c).tmr := by
  obtain ⟨k, hk, slot⟩ := exists_slotPhase busy
  rcases Nat.lt_or_eq_of_le hk with inFrame | rfl
  · rw [endSlot_tmr c inFrame slot, endSlot_tmr c inFrame (phase.trans slot)]
  · rw [endSlot_stop c slot, endSlot_stop c (phase.trans slot)]

theorem sequence_tmr_congr {o o' : Owned} (c : Config) (phase : o'.phase = o.phase) (tmr : o'.tmr = o.tmr)
    (busy : o.phase ≠ .idle) : (o'.sequence c).tmr = (o.sequence c).tmr := by
  rcases Nat.lt_or_ge 1 o.tmr with running | ended
  · rw [sequence_hold c running, sequence_hold c (tmr ▸ running), Owned.hold_tmr, Owned.hold_tmr, tmr]
  · rw [sequence_end c ended, sequence_end c (tmr ▸ ended), endSlot_tmr_congr c phase busy]

/-- What an idle tick does to the phase and the timer depends on the kind of the command accepted alone (R82). -/
theorem idle_tick_timing {s : State} (hr : s.rst = false) (hp : s.phase = .idle) :
    (s.nextOwned s.onIdle).phase =
        (if s.accepts.map Instr.row = some (Instr.transmitByte 0x00#8).row then .start else .idle) ∧
      (s.nextOwned s.onIdle).tmr =
        (if s.accepts.map Instr.row = some (Instr.transmitByte 0x00#8).row then s.cfg.edgeTicks else s.tmr) := by
  have kinds : Instr.configure.row ≠ (Instr.transmitByte 0x00#8).row := by decide
  rw [nextOwned_idle hr hp]
  rcases onIdle_cases hr hp with ⟨accepted, tick⟩ | ⟨v, accepted, tick⟩ | ⟨accepted, tick⟩
  · simp [accepted, tick, kinds, hp]
  · simp [accepted, tick, Instr.row]
  · simp [accepted, tick, hp]

/-- Settles O32: an idle tick by `idle_tick_timing`, a busy one by `sequence_phase` and `sequence_tmr_congr`. -/
theorem timingDoesNotDependOnData : Obligations.TimingDoesNotDependOnData := by
  intro s s' cfg phase tmr rst kind
  rw [after_one, after_one, nextState_phase, nextState_phase, nextState_tmr, nextState_tmr]
  rcases hr : s.rst
  · by_cases hp : s.phase = .idle
    · obtain ⟨nextPhase, nextTmr⟩ := idle_tick_timing hr hp
      obtain ⟨nextPhase', nextTmr'⟩ := idle_tick_timing (rst.trans hr) (phase.trans hp)
      rw [nextPhase, nextTmr, nextPhase', nextTmr', kind, cfg, tmr]
      exact ⟨rfl, rfl⟩
    · have hp' : s'.phase ≠ .idle := phase.trans_ne hp
      rw [nextOwned_busy hr hp, nextOwned_busy (rst.trans hr) hp', cfg, sequence_phase (o := s.owned) _ hp,
        sequence_phase (o := s'.owned) _ hp']
      exact ⟨by rw [State.owned_phase, State.owned_phase, State.owned_tmr, State.owned_tmr, phase, tmr],
        sequence_tmr_congr _ phase tmr hp⟩
  · rw [nextOwned_reset hr, nextOwned_reset (rst.trans hr)]
    exact ⟨rfl, rfl⟩

/-- What a tick loads into the timer: nothing, a slot's length, what was there, or one less of more than 1. -/
def timerMoves (c : Config) (t t' : Nat) : Prop :=
  t' = 0 ∨ t' = c.edgeTicks ∨ t' = c.dataPeriod ∨ t' = t ∨ 1 < t ∧ t' + 1 = t

theorem slotLength_eq_or (p : Params) (k : Nat) : slotLength p k = p.edgeTicks ∨ slotLength p k = p.dataPeriod := by
  unfold slotLength
  split
  · exact .inl rfl
  · exact .inr rfl

theorem timerMoves_sequence (c : Config) {o : Owned} (busy : o.phase ≠ .idle) :
    timerMoves c o.tmr (o.sequence c).tmr := by
  rcases Nat.lt_or_ge 1 o.tmr with running | ended
  · rw [sequence_hold c running]
    exact .inr (.inr (.inr (.inr ⟨running, Nat.sub_add_cancel running.le⟩)))
  · obtain ⟨k, hk, slot⟩ := exists_slotPhase busy
    rw [sequence_end c ended]
    rcases Nat.lt_or_eq_of_le hk with inFrame | rfl
    · rw [endSlot_tmr c inFrame slot]
      exact (slotLength_eq_or c.toParams (k + 1)).elim (fun h => .inr (.inl h)) fun h => .inr (.inr (.inl h))
    · exact .inl (congrArg Owned.tmr (endSlot_stop c slot))

theorem timerMoves_nextState (s : State) : timerMoves s.cfg s.tmr s.nextState.tmr := by
  rw [nextState_tmr]
  rcases tick_cases s with ⟨-, tick⟩ | ⟨-, -, -, tick⟩ | ⟨-, -, v, -, tick⟩ | ⟨-, -, -, tick⟩ | ⟨-, busy, -, tick⟩
  · exact .inl (congrArg Owned.tmr tick)
  · exact .inr (.inr (.inr (.inl (congrArg Owned.tmr tick))))
  · exact .inr (.inl ((congrArg Owned.tmr tick).trans (acceptTransmitByte_tmr _ v _)))
  · exact .inr (.inr (.inr (.inl (congrArg Owned.tmr tick))))
  · exact tick ▸ timerMoves_sequence s.cfg (o := s.owned) busy

/-- Every value a tick leaves in the timer fits it, as the slot lengths of a legal configuration do (R7, R17). -/
theorem timerMoves.fits {c : Config} {t t' : Nat} (moved : timerMoves c t t') (fits : t < 2 ^ c.tmrWidth) :
    t' < 2 ^ c.tmrWidth := by
  have edge := (le_timerMax_iff c.toParams c.edgeTicks).mp c.edge_le
  have period := (le_timerMax_iff c.toParams c.dataPeriod).mp c.period_le
  rcases moved with rfl | rfl | rfl | rfl | ⟨-, less⟩
  · exact Nat.two_pow_pos _
  · exact edge
  · exact period
  · exact fits
  · omega

/-- Settles O33: the moves of the timer (`timerMoves_nextState`) and that each of them fits. -/
theorem timerNeverWraps : Obligations.TimerNeverWraps := by
  intro s
  have moved := timerMoves_nextState s
  have cfg := s.nextState_cfg
  refine ⟨s.nextState, step_eq_nextState s, moved, cfg, fun fits => ?_⟩
  rw [State.timerFits, cfg]
  exact moved.fits fits

/-! ### `DIR` and `LINE` along a run (R25 (e), (f)) -/

/-- A tick without reset leaves the pin an output exactly if it was one or a `CONFIGURE` is accepted. -/
theorem dir_after_tick {s : State} (hr : s.rst = false) :
    (s.after 1).dir = false ↔ s.dir = false ∨ s.accepts = some .configure := by
  rw [after_one, nextState_dir]
  rcases tick_cases s with ⟨reset, -⟩ | ⟨-, -, accepted, tick⟩ | ⟨-, -, v, accepted, tick⟩ | ⟨-, -, accepted, tick⟩ |
    ⟨-, -, accepted, tick⟩
  · exact absurd reset (by simp [hr])
  all_goals simp [tick, accepted]

theorem dir_after {s : State} {n : Nat} (input : s.dir = true) (hr : s.noReset n) :
    (s.after n).dir = false ↔ ∃ k, k < n ∧ (s.after k).accepts = some .configure := by
  induction n with
  | zero => simp [input]
  | succ n ih =>
    rw [State.after_add s n 1, dir_after_tick (noReset_rst hr (Nat.lt_succ_self n)),
      ih (noReset_mono hr (Nat.le_succ n)), Nat.exists_lt_succ_right]

/-- Settles O36, by induction over the ticks (`dir_after`). -/
theorem pinIsOutputExactlyAfterConfigure : Obligations.PinIsOutputExactlyAfterConfigure :=
  fun _ _ input hr => dir_after input hr

/-- The line is at HIGH wherever it may come to rest: in `IDLE` and in the Stop slot before it. -/
def Owned.highAtRest (o : Owned) : Prop := o.phase = .idle ∨ o.phase = .stop → o.line = high

/-- The end of the slots keeps it: the last data slot drives HIGH, and the Stop slot leaves the line. -/
theorem highAtRest_endSlot (c : Config) {o : Owned} (h : o.highAtRest) (busy : o.phase ≠ .idle) :
    (o.endSlot c).highAtRest := by
  obtain ⟨k, hk, slot⟩ := exists_slotPhase busy
  rcases (by omega : k = 9 ∨ k = 8 ∨ k < 8) with rfl | rfl | inFrame
  · exact fun _ => (congrArg Owned.line (endSlot_stop c slot)).trans (h (.inr slot))
  · exact fun _ => congrArg Owned.line (endSlot_data7 c slot)
  · have phase : (o.endSlot c).phase = .data k := by
      rw [endSlot_phase c busy, slot, slotPhase_succ (by omega), slotPhase, if_neg (by omega), if_pos (by omega),
        Nat.add_sub_cancel]
    intro rest
    exact absurd rest (by simp [phase, data_ne k])

theorem highAtRest_sequence (c : Config) {o : Owned} (h : o.highAtRest) (busy : o.phase ≠ .idle) :
    (o.sequence c).highAtRest := by
  rcases Nat.lt_or_ge 1 o.tmr with running | ended
  · exact sequence_hold c running ▸ h
  · exact sequence_end c ended ▸ highAtRest_endSlot c h busy

/-- An accepted command, of either kind, establishes it. -/
theorem highAtRest_of_accepts {s : State} {i : Instr} (h : s.accepts = some i) : (s.after 1).owned.highAtRest := by
  cases i with
  | configure => exact fun _ => congrArg Owned.line (owned_after_configure h)
  | transmitByte v =>
    have start : (s.after 1).phase = .start := congrArg Owned.phase (owned_after_transmit h)
    intro rest
    exact absurd rest (by simp [start])

theorem highAtRest_after_tick {s : State} (h : s.owned.highAtRest) (hr : s.rst = false) :
    (s.after 1).owned.highAtRest := by
  cases accepted : s.accepts with
  | some i => exact highAtRest_of_accepts accepted
  | none =>
    by_cases hp : s.phase = .idle
    · exact (owned_after_idle hr hp accepted).symm ▸ h
    · rw [after_one, nextState_owned_busy hr hp]
      exact highAtRest_sequence _ h hp

theorem highAtRest_after {s : State} {k n : Nat} {i : Instr} (accepted : (s.after k).accepts = some i) (hk : k < n)
    (hr : s.noReset n) : (s.after n).owned.highAtRest := by
  induction n, hk using Nat.le_induction with
  | base => exact State.after_add s k 1 ▸ highAtRest_of_accepts accepted
  | succ n hk ih =>
    rw [State.after_add s n 1]
    exact highAtRest_after_tick (ih (noReset_mono hr (Nat.le_succ n))) (noReset_rst hr (Nat.lt_succ_self n))

/-- Settles O37: after an accepted command the line is HIGH wherever it rests (`highAtRest_after`); without one the
idle ticks keep it. -/
theorem idleLineIsHighAfterAnyCommand : Obligations.IdleLineIsHighAfterAnyCommand := by
  intro s n hp hr idle
  refine ⟨fun ⟨k, i, hk, accepted⟩ => highAtRest_after accepted hk hr (.inl idle), fun quiet => ?_⟩
  exact congrArg Owned.line (owned_idle_run hp hr quiet)

end Sys2Proof.Machine

/-! ## The host (30_encoding.md R58, R60) -/

namespace Sys2Proof.Machine

/-! ### A free host and a held one, item by item (R58 to R60) -/

theorem callerHeld_eq_false {s : State} (hr : s.rst = false) (hp : s.phase = .idle) : s.callerHeld = false := by
  simp [State.callerHeld, State.busy, hr, hp]

theorem callerPresents_of_free {s : State} (hr : s.rst = false) (hp : s.phase = .idle) :
    s.callerPresents = true := by
  simp [State.callerPresents, State.busy, hr, hp]

/-- The sequential host presents nothing while it is held. -/
theorem callerPresents_of_held {s : State} (sequential : s.caller.eager = false) (held : s.callerHeld = true) :
    s.callerPresents = false := by
  rw [State.callerHeld] at held
  rw [State.callerPresents, sequential, Bool.false_or, ← Bool.not_or, held, Bool.not_true]

theorem callerNext_of_program {s : State} (port : s.cmdPort = []) : s.callerNext = s.callerOnward := by
  simp only [State.callerNext, port]

theorem command_of_program {s : State} (port : s.cmdPort = []) (presents : s.callerPresents = true) :
    s.command = s.callerItemWord := by
  simp only [State.command, port, presents, if_true]

theorem command_of_silence {s : State} (port : s.cmdPort = []) (silent : s.callerPresents = false) :
    s.command = none := by
  simp [State.command, port, silent]

/-- A free host's command item is accepted in the tick it is presented. -/
theorem accepts_of_free {s : State} (port : s.cmdPort = []) (hr : s.rst = false) (hp : s.phase = .idle) :
    s.accepts = s.callerItemWord.map decode := by
  rw [accepts_eq_of_ready hr hp, command_of_program port (callerPresents_of_free hr hp)]

section Item

variable {s : State} {i : Instr} {d : HostItem} {total : Nat} {rest : List HostItem}

theorem callerItemWord_command (item : settle s.caller.program = .command i :: rest) :
    s.callerItemWord = some (encode i) := by
  simp only [State.callerItemWord, item]

theorem callerItemWord_sample (item : settle s.caller.program = .transmitSample :: rest) :
    s.callerItemWord = some (encode (.transmitByte s.readSample)) := by
  simp only [State.callerItemWord, item]

theorem callerOnward_command (free : s.callerHeld = false) (item : settle s.caller.program = .command i :: rest) :
    s.callerOnward = { s.caller with program := rest } := by
  simp [State.callerOnward, item, free]

theorem callerOnward_sample (free : s.callerHeld = false)
    (item : settle s.caller.program = .transmitSample :: rest) :
    s.callerOnward = { s.caller with program := rest, samples := s.caller.samples.tail } := by
  simp [State.callerOnward, item, free]

theorem callerOnward_delay (free : s.callerHeld = false) (hd : d.isDelay total)
    (item : settle s.caller.program = d :: rest) :
    s.callerOnward = s.caller.spend total (d :: rest) rest := by
  rcases hd with rfl | ⟨n, rfl, rfl⟩ <;> simp [State.callerOnward, item, free]

theorem callerOnward_done (done : settle s.caller.program = []) :
    s.callerOnward = { s.caller with program := [] } := by
  simp only [State.callerOnward, done]

end Item

/-- The four kinds of item a host can stand at. -/
theorem program_cases (l : List HostItem) :
    l = [] ∨ (∃ i rest, l = .command i :: rest) ∨ (∃ rest, l = .transmitSample :: rest) ∨
      ∃ d total rest, d.isDelay total ∧ l = d :: rest := by
  rcases l with _ | ⟨_ | _ | n | n, rest⟩
  · exact .inl rfl
  · exact .inr (.inl ⟨_, rest, rfl⟩)
  · exact .inr (.inr (.inl ⟨rest, rfl⟩))
  · exact .inr (.inr (.inr ⟨_, n, rest, .inl rfl, rfl⟩))
  · exact .inr (.inr (.inr ⟨_, 1000 * n, rest, .inr ⟨n, rfl, rfl⟩, rfl⟩))

/-- A held host keeps its place, unless it begins to present a sample (R58, R60). -/
theorem callerOnward_held {s : State} (held : s.callerHeld = true)
    (keeps : s.callerPresents = false ∨ ∀ rest, settle s.caller.program ≠ .transmitSample :: rest) :
    s.callerOnward = { s.caller with program := settle s.caller.program } := by
  rcases program_cases (settle s.caller.program) with item | ⟨i, rest, item⟩ | ⟨rest, item⟩ | ⟨d, total, rest, hd, item⟩
  · simp [State.callerOnward, item]
  · simp [State.callerOnward, item, held]
  · have silent : s.callerPresents = false := keeps.resolve_right fun other => other rest item
    simp [State.callerOnward, item, held, silent]
  · rcases hd with rfl | ⟨n, rfl, rfl⟩ <;> simp [State.callerOnward, item, held]

/-- A host that presents a sample while it is held has read it (log entry 9). -/
theorem callerOnward_prefetch {s : State} {rest : List HostItem} (held : s.callerHeld = true)
    (presents : s.callerPresents = true) (item : settle s.caller.program = .transmitSample :: rest) :
    s.callerOnward =
      { s.caller with program := .command (.transmitByte s.readSample) :: rest
                      samples := s.caller.samples.tail } := by
  simp [State.callerOnward, item, held, presents]

/-- Settles O55: a free host presents its item and moves on (`callerOnward_command`), a held sequential host presents
nothing and keeps its place (`callerOnward_held`). -/
theorem sequentialHostIsServedAtOnce : Obligations.SequentialHostIsServedAtOnce := by
  refine ⟨fun s i rest port hr hp program => ?_, fun s port sequential hold => ?_⟩
  · have item : settle s.caller.program = .command i :: rest := by rw [program]; rfl
    have command := (command_of_program port (callerPresents_of_free hr hp)).trans (callerItemWord_command item)
    have accepted : s.accepts = some i := by
      rw [accepts_eq_of_ready hr hp, command, Option.map_some, decode_encode]
    refine ⟨command, accepted, step_of_accepts accepted, ?_⟩
    rw [caller_after_one, callerNext_of_program port, callerOnward_command (callerHeld_eq_false hr hp) item]
  · have held : s.callerHeld = true := by simpa [State.callerHeld] using hold
    have silent := callerPresents_of_held sequential held
    refine ⟨command_of_silence port silent, ?_⟩
    rw [caller_after_one, callerNext_of_program port, callerOnward_held held (.inl silent)]
    exact ⟨settle_settle _, rfl⟩

theorem readSample_of_stated {s : State} {v : Byte} {more : List Byte} (h : s.caller.samples = v :: more) :
    s.readSample = v := by
  rw [State.readSample, h, List.headD_cons]

/-- Settles O57: a free host at a sample presents the one it reads, and moves on (`callerOnward_sample`). -/
theorem sampleIsTransmitted : Obligations.SampleIsTransmitted := by
  intro s rest port hr hp program
  have item : settle s.caller.program = .transmitSample :: rest := by rw [program]; rfl
  have accepted : s.accepts = some (.transmitByte s.readSample) := by
    rw [accepts_of_free port hr hp, callerItemWord_sample item, Option.map_some, decode_encode]
  have caller : (s.after 1).caller = { s.caller with program := rest, samples := s.caller.samples.tail } := by
    rw [caller_after_one, callerNext_of_program port, callerOnward_sample (callerHeld_eq_false hr hp) item]
  refine ⟨accepted, step_of_accepts accepted, by rw [caller], fun v more stated => ⟨readSample_of_stated stated, ?_⟩,
    fun unstated => ?_⟩
  · rw [caller, stated, List.tail_cons]
  · rw [State.readSample, unstated, List.headD_nil]

/-! ### A finished run (R137) -/

theorem runOver_iff (s : State) :
    s.runOver = true ↔ s.cmdPort = [] ∧ settle s.caller.program = [] ∧ s.phase = .idle := by
  simp [State.runOver, and_assoc]

/-- A tick without reset leaves a finished run finished, and the fields the block owns as they are. -/
theorem runOver_after_tick {s : State} (h : s.runOver = true) (hr : s.rst = false) :
    (s.after 1).owned = s.owned ∧ (s.after 1).runOver = true := by
  obtain ⟨port, done, idle⟩ := (runOver_iff s).mp h
  have quiet : s.accepts = none := by
    rw [accepts_of_free port hr idle]
    simp only [State.callerItemWord, done, Option.map_none]
  have kept := owned_after_idle hr idle quiet
  refine ⟨kept, (runOver_iff _).mpr ⟨?_, ?_, (congrArg Owned.phase kept).trans idle⟩⟩
  · rw [cmdPort_after_one, port, List.tail_nil]
  · rw [caller_after_one, callerNext_of_program port, callerOnward_done done]
    rfl

/-- Settles O59, by induction over the ticks (`runOver_after_tick`). -/
theorem finishedRunStaysFinished : Obligations.FinishedRunStaysFinished := by
  intro s n h hr
  have finished : (s.after n).owned = s.owned ∧ (s.after n).runOver = true := by
    induction n with
    | zero => exact ⟨rfl, h⟩
    | succ n ih =>
      obtain ⟨kept, done⟩ := ih (noReset_mono hr (Nat.le_succ n))
      obtain ⟨keptNext, doneNext⟩ := runOver_after_tick done (noReset_rst hr (Nat.lt_succ_self n))
      exact ⟨keptNext.trans kept, doneNext⟩
  exact ⟨finished.1, finished.2, wire_of_owned finished.1⟩

/-! ### The eager host and the sequential one (R58, R54) -/

/-- Where the eager host `e` stands when the sequential one is `q`: at the same place, or it has read the sample that
the sequential host is at. -/
structure Caller.Ahead (e q : Caller) : Prop where
  eager : e.eager = true
  sequential : q.eager = false
  spent : e.spent = q.spent
  /-- Every sample still to be read is stated with the program. -/
  stated : (settle q.program).count .transmitSample ≤ q.samples.length
  place : (settle e.program = settle q.program ∧ e.samples = q.samples) ∨
    ∃ v rest, settle e.program = .command (.transmitByte v) :: rest ∧
      settle q.program = .transmitSample :: rest ∧ q.samples = v :: e.samples

/-- Two hosts at the same place, with samples enough for it. -/
theorem Caller.Ahead.of_same {e q : Caller} (eager : e.eager = true) (sequential : q.eager = false)
    (spent : e.spent = q.spent) (program : settle e.program = settle q.program) (samples : e.samples = q.samples)
    (stated : q.program.count .transmitSample ≤ q.samples.length) : e.Ahead q :=
  ⟨eager, sequential, spent, (count_sample_settle _).trans_le stated, .inl ⟨program, samples⟩⟩

section Ahead

variable {q : State} {c : Caller}

/-- The eager host's word decodes to what the sequential one's decodes to. -/
theorem Caller.Ahead.itemWord (h : c.Ahead q.caller) :
    (q.withHostSide [] c).callerItemWord.map decode = q.callerItemWord.map decode := by
  rcases h.place with ⟨program, samples⟩ | ⟨v, rest, ahead, behind, sample⟩
  · have read : (q.withHostSide [] c).readSample = q.readSample :=
      congrArg (List.headD · (Config.freeSample q.ticks)) samples
    have program' : settle (q.withHostSide [] c).caller.program = settle q.caller.program := program
    rw [State.callerItemWord, State.callerItemWord, program', read]
  · rw [callerItemWord_command (s := q.withHostSide [] c) ahead, callerItemWord_sample behind,
      readSample_of_stated sample]

/-- The block accepts the same command from both hosts. -/
theorem Caller.Ahead.accepts (h : c.Ahead q.caller) (port : q.cmdPort = []) :
    (q.withHostSide [] c).accepts = q.accepts := by
  rcases hr : q.rst
  · by_cases hp : q.phase = .idle
    · rw [accepts_of_free port hr hp, accepts_of_free (s := q.withHostSide [] c) rfl hr hp, h.itemWord]
    · rw [accepts_busy hp, accepts_busy (s := q.withHostSide [] c) hp]
  · rw [accepts_reset hr, accepts_reset (s := q.withHostSide [] c) hr]

/-- While both are held the sequential host keeps its place, and the eager one may read the sample it is at. -/
theorem Caller.Ahead.onward_held (h : c.Ahead q.caller) (held : q.callerHeld = true) :
    (q.withHostSide [] c).callerOnward.Ahead q.callerOnward := by
  have held' : (q.withHostSide [] c).callerHeld = true := held
  rw [callerOnward_held held (.inl (callerPresents_of_held h.sequential held))]
  rcases h.place with ⟨program, samples⟩ | ⟨v, rest, ahead, behind, sample⟩
  · by_cases prefetch : (q.withHostSide [] c).callerPresents = true ∧
        ∃ rest, settle c.program = .transmitSample :: rest
    · obtain ⟨presents, rest, item⟩ := prefetch
      have behind := program.symm.trans item
      have stated := h.stated
      rw [behind, List.count_cons_self] at stated
      obtain ⟨v, more, sample⟩ := List.exists_cons_of_length_pos (Nat.zero_lt_of_lt stated)
      have read : (q.withHostSide [] c).readSample = v := readSample_of_stated (samples.trans sample)
      rw [callerOnward_prefetch held' presents item, read]
      refine ⟨h.eager, h.sequential, h.spent, by rw [settle_settle]; exact h.stated, .inr ⟨v, rest, rfl, ?_, ?_⟩⟩
      · rw [settle_settle, behind]
      · exact sample.trans (congrArg (v :: List.tail ·) (samples.trans sample)).symm
    · rw [callerOnward_held held' ?_]
      · exact .of_same h.eager h.sequential h.spent (congrArg settle program) samples h.stated
      · rw [not_and_or, Bool.not_eq_true, not_exists] at prefetch
        exact prefetch
  · have keeps (rest' : List HostItem) : settle (q.withHostSide [] c).caller.program ≠ .transmitSample :: rest' :=
      ahead.trans_ne (by simp)
    rw [callerOnward_held held' (.inr keeps)]
    exact ⟨h.eager, h.sequential, h.spent, by rw [settle_settle]; exact h.stated,
      .inr ⟨v, rest, (settle_settle _).trans ahead, (settle_settle _).trans behind, sample⟩⟩

/-- A free host finishes its item or spends a tick of its delay, the eager one as the sequential one. -/
theorem Caller.Ahead.onward_free (h : c.Ahead q.caller) (free : q.callerHeld = false) :
    (q.withHostSide [] c).callerOnward.Ahead q.callerOnward := by
  have free' : (q.withHostSide [] c).callerHeld = false := free
  have stated := h.stated
  rcases h.place with ⟨program, samples⟩ | ⟨v, rest, ahead, behind, sample⟩
  · rcases program_cases (settle q.caller.program) with
      item | ⟨i, rest, item⟩ | ⟨rest, item⟩ | ⟨d, total, rest, hd, item⟩ <;>
      have item' : settle (q.withHostSide [] c).caller.program = _ := program.trans item <;>
      rw [item] at stated
    · rw [callerOnward_done item, callerOnward_done item']
      exact .of_same h.eager h.sequential h.spent rfl samples (Nat.zero_le _)
    · rw [callerOnward_command free item, callerOnward_command free' item']
      exact .of_same h.eager h.sequential h.spent rfl samples (List.count_le_count_cons.trans stated)
    · rw [callerOnward_sample free item, callerOnward_sample free' item']
      rw [List.count_cons_self] at stated
      refine .of_same h.eager h.sequential h.spent rfl (congrArg List.tail samples) ?_
      rw [List.length_tail]
      exact Nat.le_sub_one_of_lt stated
    · rw [callerOnward_delay free hd item, callerOnward_delay free' hd item', Caller.spend, Caller.spend,
        show (q.withHostSide [] c).caller.spent = q.caller.spent from h.spent]
      split
      · exact .of_same h.eager h.sequential rfl rfl samples stated
      · exact .of_same h.eager h.sequential rfl rfl samples (List.count_le_count_cons.trans stated)
  · rw [callerOnward_command (s := q.withHostSide [] c) free' ahead, callerOnward_sample free behind]
    rw [behind, List.count_cons_self, sample] at stated
    refine .of_same h.eager h.sequential h.spent rfl (by rw [sample, List.tail_cons]; rfl) ?_
    rw [sample, List.tail_cons]
    exact Nat.le_of_succ_le_succ stated

theorem Caller.Ahead.onward (h : c.Ahead q.caller) : (q.withHostSide [] c).callerOnward.Ahead q.callerOnward := by
  cases held : q.callerHeld
  · exact h.onward_free held
  · exact h.onward_held held

theorem nextState_withHostSide (same : (q.withHostSide [] c).accepts = q.accepts) :
    (q.withHostSide [] c).nextState = q.nextState.withHostSide [] (q.withHostSide [] c).callerNext := by
  have owned : (q.withHostSide [] c).nextOwned (q.withHostSide [] c).onIdle = q.nextOwned q.onIdle := by
    rw [← State.nextState_owned, ← State.nextState_owned]
    exact nextState_owned_congr rfl rfl rfl rfl same
  rw [State.nextState_eq, State.nextState_eq, owned]
  rfl

end Ahead

/-- The two runs differ in the host alone, and in it by what the eager one has read ahead. -/
theorem after_withHostSide_ahead {q : State} {c : Caller} (port : q.cmdPort = []) (h : c.Ahead q.caller) (n : Nat) :
    ∃ c' : Caller, (q.withHostSide [] c).after n = (q.after n).withHostSide [] c' ∧ (q.after n).cmdPort = [] ∧
      c'.Ahead (q.after n).caller := by
  induction n with
  | zero => exact ⟨c, rfl, port, h⟩
  | succ n ih =>
    obtain ⟨c', same, port', h'⟩ := ih
    refine ⟨((q.after n).withHostSide [] c').callerOnward, ?_, ?_, ?_⟩
    · rw [State.after_succ, same, nextState_withHostSide (h'.accepts port')]
      rfl
    · rw [State.after_add q n 1, cmdPort_after_one, port', List.tail_nil]
    · rw [State.after_add q n 1, caller_after_one, callerNext_of_program port']
      exact h'.onward

/-- Settles O56: the hosts begin at the same place, and the runs then differ in the host alone
(`after_withHostSide_ahead`). -/
theorem eagerHostMakesNoDifference : Obligations.EagerHostMakesNoDifference := by
  intro s program stated port n
  have begun : (s.withProgram program true).caller.Ahead (s.withProgram program false).caller :=
    .of_same rfl rfl rfl rfl rfl stated
  have eager : s.withProgram program true =
      (s.withProgram program false).withHostSide [] (s.withProgram program true).caller := by
    rw [State.withHostSide, ← port]
    rfl
  obtain ⟨c, same, -, -⟩ := after_withHostSide_ahead (q := s.withProgram program false) port begun n
  rw [eager, same]
  exact ⟨rfl, rfl, rfl⟩

end Sys2Proof.Machine

/-! ## The host timeline (30_encoding.md R62, 70_reset_and_hazards.md R127, R128, R137) -/

namespace Sys2Proof.Machine

/-! ### One item of a sequential host's program -/

section Item

variable {s : State} {item : HostItem} {program rest : List HostItem}

theorem atItem_of_holds (h : s.holds program) (idle : s.phase = .idle) : s.atItem program := by
  obtain ⟨spent, place, port, sequential⟩ := h
  exact ⟨idle, port, spent, sequential, place⟩

/-- A host at a delay of 0 ticks is at the item after it (R59). -/
theorem atItem_of_zero_delay (hd : item.isDelay 0) (h : s.atItem (item :: rest)) : s.atItem rest := by
  have passed : settle (item :: rest) = settle rest := by
    rcases hd with rfl | ⟨n, rfl, zero⟩
    · simp [settle]
    · obtain rfl : n = 0 := by omega
      simp [settle]
  obtain ⟨idle, port, spent, sequential, place⟩ := h
  exact ⟨idle, port, spent, sequential, place.trans passed⟩

theorem settle_delay {total : Nat} (hd : item.isDelay total) (running : 0 < total) :
    settle (item :: rest) = item :: rest := by
  rcases hd with rfl | ⟨n, rfl, rfl⟩
  · simp [settle, running.ne']
  · have : n ≠ 0 := by omega
    simp [settle, this]

/-- After the ticks of a delay the host is at the item after it (R59). -/
theorem atItem_after_delay {total : Nat} (hd : item.isDelay total) (running : 0 < total)
    (h : s.atItem (item :: rest)) (hr : s.noReset total) : (s.after total).atItem rest := by
  have idle : s.phase = .idle := h.1
  obtain ⟨last, rfl⟩ : ∃ last, total = last + 1 := ⟨total - 1, by omega⟩
  obtain ⟨owned, port, sequential, place, spent, quiet⟩ := holds_in_delay hd h (settle_delay hd running) last
    (Nat.lt_succ_self last) (noReset_mono hr (Nat.le_succ last))
  have released := noReset_rst hr (Nat.lt_succ_self last)
  have idleLast : (s.after last).phase = .idle := (congrArg Owned.phase owned).trans idle
  have kept := owned_after_idle released idleLast (accepts_none_of_command quiet)
  rw [State.after_add s last 1]
  refine ⟨(congrArg Owned.phase kept).trans idleLast, by rw [cmdPort_after_one, port, List.tail_nil], ?_⟩
  rw [caller_after_one, callerNext_of_program port, callerOnward_delay (callerHeld_eq_false released idleLast) hd place,
    Caller.spend, spent, if_neg (Nat.lt_irrefl _)]
  exact ⟨rfl, sequential, rfl⟩

/-- The host holds its place through the frame of the byte it has sent (R58). -/
theorem holds_in_frame {v : Byte} (accepted : s.accepts = some (.transmitByte v)) (next : (s.after 1).holds rest)
    (hr : s.noReset (s.cfg.frameTicks + 1)) {t : Nat} (h1 : 1 ≤ t) (h2 : t ≤ s.cfg.frameTicks + 1) :
    (s.after t).holds rest := by
  induction t, h1 using Nat.le_induction with
  | base => exact next
  | succ t h1 ih =>
    have busy := (busyAt_transmit_iff accepted hr (by omega)).mpr ⟨h1, Nat.le_of_succ_le_succ h2⟩
    rw [State.after_add s t 1]
    exact holds_while_busy (ih (by omega)) ((State.busy_eq_true_iff _).mp busy)

theorem atItem_after_frame {v : Byte} (accepted : s.accepts = some (.transmitByte v)) (next : (s.after 1).holds rest)
    (hr : s.noReset (s.cfg.frameTicks + 1)) : (s.after (s.cfg.frameTicks + 1)).atItem rest :=
  atItem_of_holds (holds_in_frame accepted next hr (by omega) (Nat.le_refl _))
    (congrArg Owned.phase (frame_end accepted hr))

/-- What the timeline promises of an item in the tick it begins in (R62). -/
def HostItem.served (item : HostItem) (s : State) : Prop :=
  match item with
  | .command i => s.accepts = some i
  | .transmitSample => ∃ v, s.accepts = some (.transmitByte v)
  | .delayUs _ => True
  | .delayMs _ => True

/-- A host at a command item has it accepted at once, and is past it in the next tick. -/
theorem served_command {i : Instr} (h : s.atItem (.command i :: rest)) (hr : s.rst = false) :
    s.accepts = some i ∧ (s.after 1).holds rest := by
  obtain ⟨command, next⟩ := command_of_item h rfl hr
  exact ⟨by rw [accepts_eq_of_ready hr h.1, command, Option.map_some, decode_encode], next⟩

theorem served_sample (h : s.atItem (.transmitSample :: rest)) (hr : s.rst = false) :
    s.accepts = some (.transmitByte s.readSample) ∧ (s.after 1).holds rest := by
  obtain ⟨command, next⟩ := command_of_sample h rfl hr
  exact ⟨by rw [accepts_eq_of_ready hr h.1, command, Option.map_some, decode_encode], next⟩

theorem runOver_of_busy (busy : s.phase ≠ .idle) : s.runOver = false :=
  Bool.eq_false_iff.mpr fun h => busy ((runOver_iff s).mp h).2.2

theorem runOver_of_item (place : settle s.caller.program = item :: rest) : s.runOver = false := by
  simp [State.runOver, place]

theorem runOver_of_atItem (h : s.atItem program) (place : settle program = item :: rest) : s.runOver = false := by
  obtain ⟨-, -, -, -, same⟩ := h
  exact runOver_of_item (same.trans place)

/-- The run is not over in the tick that begins the sending of a byte, nor in its frame. -/
theorem runOver_in_frame {v : Byte} (accepted : s.accepts = some (.transmitByte v)) (begun : s.runOver = false)
    (hr : s.noReset (s.cfg.frameTicks + 1)) {t : Nat} (ht : t < s.cfg.frameTicks + 1) :
    (s.after t).runOver = false := by
  rcases Nat.eq_zero_or_pos t with rfl | h1
  · exact begun
  · have busy := (busyAt_transmit_iff accepted hr ht.le).mpr ⟨h1, Nat.le_of_lt_succ ht⟩
    exact runOver_of_busy ((State.busy_eq_true_iff _).mp busy)

/-- The timeline promises nothing of a delay in the tick it begins in. -/
theorem HostItem.isDelay.served {d : HostItem} {total : Nat} (hd : d.isDelay total) (s : State) : d.served s := by
  rcases hd with rfl | ⟨n, rfl, -⟩ <;> trivial

theorem HostItem.isDelay.ticksTaken {d : HostItem} {total : Nat} (hd : d.isDelay total) (p : Params) :
    d.ticksTaken p = total := by
  rcases hd with rfl | ⟨n, rfl, rfl⟩ <;> rfl

/-- Every item is served in the tick it begins in, the host is at the next item when its ticks are over (R62), and the
run is over in none of them (R137). -/
theorem item_spec (h : s.atItem (item :: rest)) (hr : s.noReset (item.ticksTaken s.cfg.toParams)) :
    item.served s ∧ (s.after (item.ticksTaken s.cfg.toParams)).atItem rest ∧
      ∀ t, t < item.ticksTaken s.cfg.toParams → (s.after t).runOver = false := by
  rcases program_cases (item :: rest) with empty | ⟨i, l, e⟩ | ⟨l, e⟩ | ⟨d, total, l, hd, e⟩
  · cases empty
  · cases e
    cases i with
    | configure =>
      obtain ⟨accepted, next⟩ := served_command h (noReset_zero hr Nat.one_pos)
      have idle : (s.after 1).phase = .idle := (State.busy_eq_false_iff _).mp (busyAt_one_configure accepted)
      refine ⟨accepted, atItem_of_holds next idle, fun t ht => ?_⟩
      obtain rfl : t = 0 := Nat.lt_one_iff.mp ht
      exact runOver_of_atItem h rfl
    | transmitByte v =>
      obtain ⟨accepted, next⟩ := served_command h (noReset_zero hr (Nat.succ_pos _))
      exact ⟨accepted, atItem_after_frame accepted next hr,
        fun t ht => runOver_in_frame accepted (runOver_of_atItem h rfl) hr ht⟩
  · cases e
    obtain ⟨accepted, next⟩ := served_sample h (noReset_zero hr (Nat.succ_pos _))
    exact ⟨⟨_, accepted⟩, atItem_after_frame accepted next hr,
      fun t ht => runOver_in_frame accepted (runOver_of_atItem h rfl) hr ht⟩
  · cases e
    rw [hd.ticksTaken] at hr ⊢
    refine ⟨hd.served s, ?_⟩
    rcases Nat.eq_zero_or_pos total with rfl | running
    · exact ⟨atItem_of_zero_delay hd h, fun t ht => absurd ht (Nat.not_lt_zero t)⟩
    · refine ⟨atItem_after_delay hd running h hr, fun t ht => ?_⟩
      obtain ⟨-, -, -, place, -⟩ := holds_in_delay hd h (settle_delay hd running) t ht (noReset_mono hr ht.le)
      exact runOver_of_item place

end Item

/-! ### A whole program -/

/-- The ticks a program takes (R62). -/
def programTicks (p : Params) (program : List HostItem) : Nat := (program.map (HostItem.ticksTaken p)).sum

theorem programTicks_cons (p : Params) (item : HostItem) (rest : List HostItem) :
    programTicks p (item :: rest) = item.ticksTaken p + programTicks p rest := by
  rw [programTicks, List.map_cons, List.sum_cons, programTicks]

/-- The last tick of the timeline is the tick in which the items' ticks are over. -/
theorem timeline_getLast? (p : Params) (a : Nat) (program : List HostItem) :
    (timeline p a program).getLast? = some (a + programTicks p program) := by
  induction program generalizing a with
  | nil => rfl
  | cons item rest ih =>
    rw [timeline, List.getLast?_cons, ih, Option.getD_some, programTicks_cons, Nat.add_assoc]

/-- The timeline of a program whose host is at its first item in tick `a` (R62, R137). -/
theorem timeline_spec {s : State} {program : List HostItem} {a : Nat} (h : (s.after a).atItem program)
    (hr : s.noReset (a + programTicks s.cfg.toParams program)) :
    (∀ (k : Nat) item b, program[k]? = some item → (timeline s.cfg.toParams a program)[k]? = some b →
        item.served (s.after b)) ∧
      (s.after (a + programTicks s.cfg.toParams program)).runOver = true ∧
      ∀ t, a ≤ t → t < a + programTicks s.cfg.toParams program → (s.after t).runOver = false := by
  induction program generalizing a with
  | nil =>
    obtain ⟨idle, port, -, -, place⟩ := h
    exact ⟨fun k item b atK => by simp at atK, (runOver_iff _).mpr ⟨port, place, idle⟩,
      fun t ha ht => absurd ht (Nat.not_lt.mpr ha)⟩
  | cons item rest ih =>
    rw [programTicks_cons, ← Nat.add_assoc] at hr ⊢
    have now := item_spec h (noReset_after (by rw [State.after_cfg]; exact noReset_mono hr (Nat.le_add_right _ _)))
    rw [State.after_cfg, ← State.after_add] at now
    obtain ⟨served, next, unfinished⟩ := now
    obtain ⟨servedLater, ended, unfinishedLater⟩ := ih next hr
    refine ⟨fun k item' b atK begins => ?_, ended, fun t ha ht => ?_⟩
    · cases k with
      | zero =>
        cases atK
        cases begins
        exact served
      | succ k => exact servedLater k item' b atK begins
    · rcases Nat.lt_or_ge t (a + item.ticksTaken s.cfg.toParams) with during | later
      · obtain ⟨n, rfl⟩ := Nat.exists_eq_add_of_le ha
        rw [State.after_add]
        exact unfinished n (Nat.lt_of_add_lt_add_left during)
      · exact unfinishedLater t later ht

/-- A program just loaded is at its first item. -/
theorem atItem_withProgram {s : State} (idle : s.phase = .idle) (port : s.cmdPort = []) (program : List HostItem) :
    (s.withProgram program false).atItem program := ⟨idle, port, rfl, rfl, rfl⟩

/-- Settles O58, by induction over the program (`timeline_spec`), whose step is one item (`item_spec`). -/
theorem hostTimeline : Obligations.HostTimeline := by
  intro s program e idle port last hr
  obtain rfl : programTicks s.cfg.toParams program = e := by
    rw [timeline_getLast?, Nat.zero_add] at last
    exact Option.some.inj last
  obtain ⟨served, ended, unfinished⟩ := timeline_spec (s := s.withProgram program false) (a := 0)
    (atItem_withProgram idle port program) (by rw [Nat.zero_add]; exact hr)
  rw [Nat.zero_add] at ended unfinished
  exact ⟨fun k i a item begins => served k (.command i) a item begins,
    fun k a item begins => served k .transmitSample a item begins, ended, fun t ht => unfinished t (Nat.zero_le t) ht⟩

/-! ### The start-up program (R127, R128) -/

/-- Nothing is accepted in the ticks of a delay, and so no frame begins. -/
theorem accepts_none_in_delay {s : State} {d : HostItem} {total t : Nat} {rest : List HostItem} (hd : d.isDelay total)
    (h : s.atItem (d :: rest)) (ht : t < total) (hr : s.noReset t) : (s.after t).accepts = none := by
  obtain ⟨-, -, -, -, -, quiet⟩ := holds_in_delay hd h (settle_delay hd (Nat.zero_lt_of_lt ht)) t ht hr
  exact accepts_none_of_command quiet

/-- The start-up program of R127. -/
def startUp (d : Nat) (v : Byte) : List HostItem :=
  [HostItem.command .configure, HostItem.delayUs d, HostItem.command (.transmitByte v)]

/-- In the start-up program the `CONFIGURE` is accepted in tick 0, the `TRANSMIT_BYTE` in tick `d + 1`, no frame begins
before it, and the run is over after its frame. -/
theorem startUp_accepts {run : State} {d : Nat} {v : Byte} (h : run.atItem (startUp d v))
    (hr : run.noReset (d + run.cfg.frameTicks + 2)) :
    run.accepts = some .configure ∧ (∀ t, t < d + 1 → run.noFrameBegins t) ∧
      (run.after (d + 1)).accepts = some (.transmitByte v) ∧
      (run.after (d + run.cfg.frameTicks + 2)).runOver = true := by
  have ticks : programTicks run.cfg.toParams (startUp d v) = d + run.cfg.frameTicks + 2 := by
    simp only [programTicks, startUp, List.map_cons, List.map_nil, List.sum_cons, List.sum_nil, HostItem.ticksTaken,
      HostItem.delayTicks]
    omega
  obtain ⟨served, ended, -⟩ := timeline_spec (s := run) (a := 0) h (by rwa [ticks, Nat.zero_add])
  rw [Nat.zero_add, ticks] at ended
  have configured : run.accepts = some .configure := served 0 _ 0 rfl rfl
  have transmitted : (run.after (d + 1)).accepts = some (.transmitByte v) :=
    Nat.add_comm 1 d ▸ served 2 (.command (.transmitByte v)) (0 + 1 + d) rfl rfl
  obtain ⟨-, delaying, -⟩ := item_spec h (noReset_mono hr (by simp [HostItem.ticksTaken]))
  refine ⟨configured, fun t ht => ?_, transmitted, ended⟩
  cases t with
  | zero => exact fun u => by simp [configured]
  | succ t =>
    apply noFrameBegins_of_accepts_none
    rw [Nat.add_comm, State.after_add]
    exact accepts_none_in_delay (.inl rfl) delaying (Nat.lt_of_succ_lt_succ ht)
      (noReset_after (noReset_mono hr (by omega)))

/-- A frame begun in tick `a` of a run with the wire HIGH is seen from there (R96, R104). -/
theorem frame_received_at {run : State} {a : Nat} {v : Byte} (accepted : (run.after a).accepts = some (.transmitByte v))
    (wire : run.wireAt a = .driven high) (hr : run.noReset (a + (run.cfg.frameTicks + 1))) :
    run.fallingEdge (a + 1) ∧ receive run.cfg.toParams run.levelAt (a + 1) = v.toNat := by
  obtain ⟨output, -⟩ := (State.wire_eq_driven_iff _ _).mp wire
  obtain ⟨-, -, lowered⟩ := fallingEdge_of_transmit accepted wire
  rw [wireAt_after] at lowered
  refine ⟨⟨Nat.le_add_left 1 a, wire, lowered⟩, ?_⟩
  have received := receive_frame accepted output (by rw [State.after_cfg]; exact noReset_after hr)
  rwa [State.after_cfg, ← receive_after] at received

/-- Settles O60: the acceptances are those of the timeline (`startUp_accepts`), and a line at rest from the
`CONFIGURE` on is HIGH up to the tick in which the frame begins. -/
theorem startUpProgram : Obligations.StartUpProgram := by
  intro s d v idle input port hr run
  have hrRun : run.noReset (d + run.cfg.frameTicks + 2) := noReset_mono hr (Nat.le_succ _)
  obtain ⟨configured, noFrame, transmitted, ended⟩ :=
    startUp_accepts (atItem_withProgram idle port (startUp d v)) hrRun
  have rests {t : Nat} (h1 : 1 ≤ t) (ht : t ≤ d + 1) : run.wireAt t = .driven high :=
    wireAt_high_after_configure configured (noReset_mono hrRun (by omega)) noFrame h1 ht
  have hrFrame : run.noReset (d + 1 + (run.cfg.frameTicks + 1)) := noReset_mono hrRun (by omega)
  obtain ⟨edge, received⟩ :=
    frame_received_at transmitted (rests (Nat.le_add_left 1 d) (Nat.le_refl _)) hrFrame
  exact ⟨State.wire_of_input input, fun t h1 ht => rests h1 ht, transmitted,
    fun waited t first ht => rests (by omega) ht, edge, received, ended⟩

end Sys2Proof.Machine

/-! ## A receiver with a clock of its own (43_waveform_and_receiver.md R106) -/

namespace Sys2Proof.Machine

/-- The window of slot `k` holds exactly if the sampling tick is one of the slot's (R106). -/
theorem readsSlot_iff (p : Params) {r : BitPeriod} {k t : Nat} (h : r.samplesIn 1 k t) :
    r.readsSlot p k ↔ slotFirst p k ≤ t ∧ t ≤ slotLast p k := by
  obtain ⟨reached, inside⟩ := h
  rw [Nat.cast_one] at reached inside
  have first : (slotOffset p k : ℝ) ≤ (k + 1 / 2) * r.ticks ↔ slotFirst p k ≤ t := by
    rw [slotFirst, Nat.succ_le_iff]
    constructor
    · intro h
      have : (slotOffset p k : ℝ) < t := by linarith
      exact_mod_cast this
    · intro h
      have : (slotOffset p k : ℝ) + 1 ≤ t := by exact_mod_cast h
      linarith
  have last : (k + 1 / 2) * r.ticks < (slotOffset p k : ℝ) + slotLength p k ↔ t ≤ slotLast p k := by
    rw [slotLast]
    constructor
    · intro h
      have : (t : ℝ) < slotOffset p k + slotLength p k + 1 := by linarith
      exact Nat.lt_succ_iff.mp (by exact_mod_cast this)
    · intro h
      have : (t : ℝ) ≤ slotOffset p k + slotLength p k := by exact_mod_cast h
      linarith
  rw [BitPeriod.readsSlot, first, last]

/-- What a receiver reads is assembled from the levels of the ticks its sampling times lie in. -/
theorem reads_iff {r : BitPeriod} {levels : Nat → Level} {f n : Nat} {tick : Nat → Nat}
    (h : ∀ k, r.samplesIn f k (tick k)) : r.reads levels f n ↔ n = assembleByte fun k => levels (tick k) := by
  refine ⟨fun ⟨tick', h', read⟩ => ?_, fun read => ⟨tick, h, read⟩⟩
  rwa [show tick = tick' from funext fun k => samplesIn_unique (h k) (h' k)]

section Frame

variable {s : State} {v : Byte} {r : BitPeriod} (h : s.accepts = some (.transmitByte v)) (output : s.dir = false)
  (hr : s.noReset (s.cfg.frameTicks + 1)) (window : r.readsFrame s.cfg.toParams)
include h output hr window

/-- Inside its window a receiver samples every slot at the slot's level. -/
theorem levelAt_samplesIn {k t : Nat} (hk : k < 10) (sampled : r.samplesIn 1 k t) : s.levelAt t = slotLevel v k := by
  obtain ⟨first, last⟩ := (readsSlot_iff _ sampled).mp (window k hk)
  have inFrame := slotLast_le_frameTicks s.cfg.toParams (Nat.le_of_lt_succ hk)
  exact levelAt_of_wireAt (wireAt_in_slot h output (noReset_mono hr (by omega)) (Nat.le_of_lt_succ hk) first last)

/-- Inside its window a receiver reads the byte and no other. -/
theorem reads_frame_iff (n : Nat) : r.reads s.levelAt 1 n ↔ n = v.toNat := by
  choose tick sampled using exists_samplesIn r 1
  have levels : assembleByte (fun k => s.levelAt (tick k)) = assembleByte fun k => slotLevel v k :=
    assembleByte_congr fun k _ h8 => levelAt_samplesIn h output hr window (by omega) (sampled k)
  rw [reads_iff sampled, levels, assembleByte_slotLevel]

end Frame

/-! ### The worked windows (R106) -/

/-- The window of the Start slot. -/
theorem readsSlot_start (r : BitPeriod) (p : Params) : r.readsSlot p 0 ↔ r.ticks < 2 * p.edgeTicks := by
  have := r.positive
  simp only [BitPeriod.readsSlot, slotOffset, slotLength, if_true, true_or, Nat.cast_zero]
  constructor
  · rintro ⟨-, h⟩
    linarith
  · intro h
    constructor <;> linarith

/-- The window of data slot `i`. -/
theorem readsSlot_data (r : BitPeriod) (p : Params) {i : Nat} (hi : i < 8) : r.readsSlot p (i + 1) ↔
    (p.edgeTicks : ℝ) + i * p.dataPeriod ≤ (i + 3 / 2) * r.ticks ∧
      (i + 3 / 2) * r.ticks < (p.edgeTicks : ℝ) + (i + 1) * p.dataPeriod := by
  have time : ((i + 1 : Nat) + 1 / 2 : ℝ) * r.ticks = (i + 3 / 2) * r.ticks := by push_cast; ring
  have offset : slotOffset p (i + 1) = p.edgeTicks + i * p.dataPeriod := by simp [slotOffset]
  rw [BitPeriod.readsSlot, time, offset, slotLength_data p (by omega) (by omega)]
  push_cast
  rw [show (p.edgeTicks : ℝ) + i * p.dataPeriod + p.dataPeriod = p.edgeTicks + (i + 1) * p.dataPeriod by ring]

/-- The window of the Stop slot. -/
theorem readsSlot_stop (r : BitPeriod) (p : Params) : r.readsSlot p 9 ↔
    (p.edgeTicks : ℝ) + 8 * p.dataPeriod ≤ 19 / 2 * r.ticks ∧
      19 / 2 * r.ticks < 2 * (p.edgeTicks : ℝ) + 8 * p.dataPeriod := by
  have time : ((9 : Nat) + 1 / 2 : ℝ) * r.ticks = 19 / 2 * r.ticks := by push_cast; ring
  have offset : slotOffset p 9 = p.edgeTicks + 8 * p.dataPeriod := rfl
  have length : slotLength p 9 = p.edgeTicks := rfl
  rw [BitPeriod.readsSlot, time, offset, length]
  push_cast
  rw [show (p.edgeTicks : ℝ) + 8 * p.dataPeriod + p.edgeTicks = 2 * p.edgeTicks + 8 * p.dataPeriod by ring]

/-- The window of the frame is that of its three kinds of slot. -/
theorem readsFrame_iff (r : BitPeriod) (p : Params) :
    r.readsFrame p ↔ r.readsSlot p 0 ∧ (∀ i, i < 8 → r.readsSlot p (i + 1)) ∧ r.readsSlot p 9 := by
  constructor
  · exact fun h => ⟨h 0 (by decide), fun i hi => h (i + 1) (by omega), h 9 (by decide)⟩
  · rintro ⟨start, data, stop⟩ k hk
    rcases (by omega : k = 0 ∨ k = 9 ∨ 1 ≤ k ∧ k ≤ 8) with rfl | rfl | ⟨h1, h8⟩
    · exact start
    · exact stop
    · obtain ⟨i, rfl⟩ := Nat.exists_eq_add_of_le' h1
      exact data i (by omega)

/-- At `E = DP = 104` the Stop slot's window is the narrowest, and it decides (R106). -/
theorem readsFrame_equal_slots {p : Params} (r : BitPeriod) (edge : p.edgeTicks = 104) (period : p.dataPeriod = 104) :
    r.readsFrame p ↔ 1872 / 19 ≤ r.ticks ∧ r.ticks < 2080 / 19 := by
  rw [readsFrame_iff, readsSlot_start, readsSlot_stop, edge, period]
  push_cast
  constructor
  · rintro ⟨-, -, first, last⟩
    constructor <;> linarith
  · rintro ⟨long, short⟩
    refine ⟨by linarith, fun i hi => ?_, by linarith, by linarith⟩
    rw [readsSlot_data r p hi, edge, period]
    push_cast
    have : (i : ℝ) ≤ 7 := by exact_mod_cast Nat.le_of_lt_succ hi
    have : (0 : ℝ) ≤ i := Nat.cast_nonneg i
    constructor <;> nlinarith

/-- At `E = R = 104` the Stop slot's window is the narrowest too (R106). -/
theorem readsFrame_nominal_period {p : Params} (r : BitPeriod) (edge : p.edgeTicks = 104) (period : r.ticks = 104) :
    r.readsFrame p ↔ (97.5 : ℝ) < p.dataPeriod ∧ (p.dataPeriod : ℝ) ≤ 110.5 := by
  rw [readsFrame_iff, readsSlot_start, readsSlot_stop, edge, period]
  push_cast
  constructor
  · rintro ⟨-, -, first, last⟩
    constructor <;> linarith
  · rintro ⟨long, short⟩
    refine ⟨by norm_num, fun i hi => ?_, by linarith, by linarith⟩
    rw [readsSlot_data r p hi, edge, period]
    push_cast
    have : (i : ℝ) ≤ 7 := by exact_mod_cast Nat.le_of_lt_succ hi
    have : (0 : ℝ) ≤ i := Nat.cast_nonneg i
    constructor <;> nlinarith

/-! ### A bit period that is a fraction (R106) -/

section Fraction

variable {q : PeriodFraction} {r : BitPeriod} (h : q.is r)
include h

/-- The sampling time of slot `k` with the fraction cleared. -/
theorem fraction_time (k : Nat) :
    (((2 * k + 1) * q.num : Nat) : ℝ) = ((k + 1 / 2) * r.ticks) * ((2 * q.den : Nat) : ℝ) := by
  have period : r.ticks * q.den = q.num := h
  push_cast
  rw [← period]
  ring

omit h in
theorem fraction_den_pos (q : PeriodFraction) : (0 : ℝ) < ((2 * q.den : Nat) : ℝ) :=
  Nat.cast_pos.mpr (Nat.mul_pos Nat.two_pos q.denPositive)

/-- A count is at most the sampling time exactly if it is with the fraction cleared. -/
theorem le_fraction_time (m k : Nat) :
    m * (2 * q.den) ≤ (2 * k + 1) * q.num ↔ (m : ℝ) ≤ (k + 1 / 2) * r.ticks := by
  rw [← Nat.cast_le (α := ℝ), fraction_time h, Nat.cast_mul, mul_le_mul_iff_left₀ (fraction_den_pos q)]

theorem fraction_time_lt (m k : Nat) :
    (2 * k + 1) * q.num < m * (2 * q.den) ↔ (k + 1 / 2) * r.ticks < (m : ℝ) := by
  rw [← not_le, le_fraction_time h, not_le]

theorem fraction_readsSlot_iff (p : Params) (k : Nat) : q.readsSlot p k ↔ r.readsSlot p k := by
  rw [PeriodFraction.readsSlot, BitPeriod.readsSlot, le_fraction_time h, fraction_time_lt h, Nat.cast_add]

/-- The tick computed by whole-number division is the one the sampling time lies in. -/
theorem fraction_samplesIn (f k : Nat) : r.samplesIn f k (q.sampleTick f k) := by
  have den : 0 < 2 * q.den := Nat.mul_pos Nat.two_pos q.denPositive
  have reached := (le_fraction_time h _ k).mp (Nat.div_mul_le_self ((2 * k + 1) * q.num) (2 * q.den))
  have inside := (fraction_time_lt h _ k).mp
    ((Nat.div_lt_iff_lt_mul den).mp (Nat.lt_succ_self ((2 * k + 1) * q.num / (2 * q.den))))
  rw [Nat.cast_succ] at inside
  rw [BitPeriod.samplesIn, PeriodFraction.sampleTick, Nat.cast_add]
  constructor <;> linarith

end Fraction

/-- Settles O54: inside the window each sampling tick is one of its slot's (`readsSlot_iff`), where the wire is at the
slot's level; the worked windows are decided by the Stop slot; and a fraction has the same sampling ticks
(`fraction_samplesIn`). -/
theorem receiverClockWindow : Obligations.ReceiverClockWindow :=
  ⟨fun _ _ _ h output hr window => ⟨fun _ _ hk sampled => levelAt_samplesIn h output hr window hk sampled,
      reads_frame_iff h output hr window⟩,
    fun p _ _ _ sampled => readsSlot_iff p sampled, fun _ r edge period => readsFrame_equal_slots r edge period,
    fun _ r edge period => readsFrame_nominal_period r edge period,
    fun _ _ h => ⟨fraction_readsSlot_iff h, fraction_samplesIn h, fun _ f _ => reads_iff (fraction_samplesIn h f)⟩⟩

end Sys2Proof.Machine
